-- ==== Sys2Proof/Word.lean ====
section
/-! DEFINITION. The word types of EFMX: a byte, a 14-bit channel symbol, a 9-bit command word, the 298-bit output vector. -/

namespace Sys2Proof

/-- An 8-bit value: a byte of `CB`, a translated source value (`VAL_BITS` = 8, 00_scope.md R8). -/
abbrev Byte := BitVec 8

/-- A 14-bit channel symbol or channel code (`SYM_BITS` = 14, 00_scope.md R8; 30_encoding.md R78, R81). -/
abbrev Sym := BitVec 14

/-- The 9-bit command word of format CMD (30_encoding.md R71). -/
abbrev CmdWord := BitVec 9

/-- The 298-bit vector of format OUT (30_encoding.md R82). -/
abbrev OutWord := BitVec 298

end Sys2Proof
end

