-- ==== Sys2Proof/Config.lean ====
section
/-! DEFINITION. The numbers of 00_scope.md R8, the parameters the spec decides (R9), and the one it leaves open: the contents of the Symbol Translation Table. -/

namespace Sys2Proof.Config

/-- `T_MIN`, the lower clamp bound (00_scope.md R8). -/
def tMin : Int := 3
/-- `T_MAX`, the upper clamp bound (00_scope.md R8). -/
def tMax : Int := 11
/-- `BUF_BYTES` (00_scope.md R8). -/
def bufBytes : Nat := 74
/-- `BUF_BITS`, the expansion ceiling (00_scope.md R8). -/
def bufBits : Nat := 592
/-- `FRAME_BITS` (00_scope.md R8). -/
def frameBits : Nat := 588
/-- `PAD_BITS` (00_scope.md R8). -/
def padBits : Nat := 4
/-- `HDR_BITS` (00_scope.md R8). -/
def hdrBits : Nat := 24
/-- `MERGE_BITS` (00_scope.md R8). -/
def mergeBits : Nat := 3
/-- `SYM_BITS` (00_scope.md R8). -/
def symBits : Nat := 14
/-- `FIRST_OFF`, the stream index of symbol 0 (00_scope.md R8). -/
def firstOff : Nat := 27
/-- `STRIDE`, the distance between symbol starts (00_scope.md R8). -/
def stride : Nat := 17
/-- `NSYM`, symbols per frame (00_scope.md R8). -/
def nSym : Nat := 33
/-- `NDATA`, data symbols per frame (00_scope.md R8). -/
def nData : Nat := 32
/-- `S0`, the reserved code of sync-pattern-0 (00_scope.md R8). -/
def s0 : Sym := 0x801#14
/-- `S1`, the reserved code of sync-pattern-1 (00_scope.md R8). -/
def s1 : Sym := 0x012#14
/-- `TABLE_SIZE` (00_scope.md R8). -/
def tableSize : Nat := 256
/-- `EXT_MAX_W`, the largest width `extract` accepts (00_scope.md R8). -/
def extMaxW : Nat := 31
/-- `TW`, the width of the port field `in_t` (00_scope.md R9, decided 8: D2). -/
def tw : Nat := 8
/-- `SUB_FAIL`, the subcode byte after a failed translation (00_scope.md R9, 42_translate.md R146, decided 0xFF: D7). -/
def subFail : Byte := 0xFF#8

/-- `TABLE`, the contents of the Symbol Translation Table: source value to 14-bit code. OPEN (00_scope.md R9, D11, U1).
No body: nothing can be proved about a code. A state's `table` field starts with it at reset; log 1. -/
opaque tableWord : Byte → Sym

end Sys2Proof.Config
end

