-- ==== Sys2Proof/Syntax.lean ====
section
/-! DEFINITION. The instructions of EFMX (one constructor per row of spec/opcode_table.json), the places an encoded word can stand, and what the upstream can present on the input port. -/

namespace Sys2Proof

/-- One row of the opcode table each (30_encoding.md R84): two port commands and four symbol classes. -/
inductive Instr where
  /-- `RUN t` (R72, R104). `t` is a mathematical integer (R36, R85 "integer-level"); only 0 to 255 has an encoding. -/
  | run (t : Int)
  /-- `END` (R73, R162). Its operand field is ignored, so the instruction carries none. -/
  | endCmd
  /-- `SYNC0`: slot 0 holds 0x0801 (R78, R144). -/
  | sync0
  /-- `SYNC1`: slot 0 holds 0x0012 (R78, R144). -/
  | sync1
  /-- `SUBCODE`: slot 0 holds the channel code `c` (R78, R145). -/
  | subcode (c : Sym)
  /-- `DATA`: data slot `lane` (channel symbol `lane + 1`) holds the channel code `c` (R78, R147). -/
  | data (lane : Fin 32) (c : Sym)
  deriving DecidableEq, Repr

/-- Where an encoded word stands. The formats are told apart by the place, not by the bits (30_encoding.md R70, R78). -/
inductive Format where
  /-- `CMD`: the command word on the input port, 9 bits (R71). -/
  | cmd
  /-- `SYM0`: channel symbol 0, the subcode slot, 14 bits (R78). -/
  | sym0
  /-- `SYMD`: channel symbol `lane + 1`, a data slot, 14 bits (R78). -/
  | symD (lane : Fin 32)
  deriving DecidableEq, Repr

/-- The three formats as the opcode table names them, without the data slot's number. -/
inductive FormatName where
  | CMD
  | SYM0
  | SYMD
  deriving DecidableEq, Repr

/-- The opcode table's name of a format. -/
def Format.name : Format → FormatName
  | .cmd => .CMD
  | .sym0 => .SYM0
  | .symD _ => .SYMD

/-- The width in bits of a word of a format (30_encoding.md R70). -/
def Format.width : Format → Nat
  | .cmd => 9
  | .sym0 => 14
  | .symD _ => 14

/-- The opcode table's mnemonic of an instruction. -/
def Instr.mnemonic : Instr → String
  | .run _ => "RUN"
  | .endCmd => "END"
  | .sync0 => "SYNC0"
  | .sync1 => "SYNC1"
  | .subcode _ => "SUBCODE"
  | .data _ _ => "DATA"

/-- What the outside puts on the input port (10_state.md R36): an accepted command word, or an assertion of `rst`. -/
inductive PortItem where
  /-- A command word accepted with `in_valid` and `in_ready` both 1 (R36, R71). -/
  | command (w : CmdWord)
  /-- `rst` asserted (70_reset_and_hazards.md R210; `RESET` of 30_encoding.md R85). -/
  | rst
  deriving DecidableEq, Repr

end Sys2Proof
end

