-- ==== Sys2Proof/Machine/State.lean ====
section
/-! DEFINITION. The state of EFMX (10_state.md R20, one field per row, and three fields of the model's own), the reasons a call can be turned away, and reset. -/

namespace Sys2Proof.Machine

/-- The byte view of the bitstream space (10_state.md R22, R35): cells (byte address, byte) in canonical form, see `Memory.wf`.
A byte that is not listed reads 0x00: `CB` is all zero at reset (R40). -/
abbrev Memory := List Host.Cell

/-- A one-shot output event, one per accepted `END` (10_state.md R38). -/
inductive Event where
  /-- The `END` produced a frame. -/
  | frameValid
  /-- The `END` found no input. -/
  | missing
  deriving DecidableEq, Repr

/-- Reasons the machine could stop with a fault: none exists. "No condition in this core is fatal" (60_exceptions.md R180, R192).
No definition of the model raises one; safe, since an absent fault is no claim that something stops. -/
inductive Fault where
  deriving DecidableEq, Repr

/-- Reasons a call is turned away. -/
inductive Refusal where
  /-- An arm of `exec` whose instruction has no meaning yet (none is left). Safe: nothing is claimed of such a run. -/
  | notModelled (mnemonic : String)
  /-- Raised by `extract` and `memRead` for a width above 31 or a field that passes the buffer's end: the function has no value
  there (20_memory.md R55, 41_extract.md R120, U4, U5). No instruction makes such a call. Safe. -/
  | extractOutOfDomain (off w : Nat)
  /-- Raised by `memWrite` for a bit index of 592 or more: `MemWrite` is defined for 0 to 591 only (00_scope.md section 5.2,
  20_memory.md R55). No instruction makes such a call. Safe. -/
  | bitOutsideBuffer (n : Nat)
  /-- Raised by `stepAt` for an index at which there is no instance (60_exceptions.md R203). Safe. -/
  | noSuchInstance (k : Nat)
  deriving DecidableEq, Repr

/-- The state. Names of the spec's rows (10_state.md R20) in the docstrings. -/
structure State where
  /-- `CB[0..591]`, the channel bitstream buffer, in its byte view (R21, R22). -/
  cb : Memory
  /-- `WP`, the write cursor, 0 to 592 (R23). -/
  wp : Nat
  /-- `HAVE`: a `RUN` was accepted since reset or the last `END` (R24). -/
  haveRun : Bool
  /-- `TRUNC_W`: the frame being filled lost a bit at the ceiling (R25). -/
  truncW : Bool
  /-- `FV`: the output registers hold a Decoded Frame (R31). -/
  fv : Bool
  /-- `DATA[0..31]` (R30). -/
  data : Vector Byte 32
  /-- `ERR[0..31]` (R30). -/
  err : Vector Bool 32
  /-- `SUB` (R30). -/
  sub : Byte
  /-- `SYNC0` (R30). -/
  sync0 : Bool
  /-- `SYNC1` (R30). -/
  sync1 : Bool
  /-- `MISSING`: the most recent `END` found no input (R32). -/
  missing : Bool
  /-- `TRUNC`: the held frame's expansion lost a bit (R32). -/
  trunc : Bool
  /-- `SUBERR`: the held frame's subcode translation failed (R32). -/
  subErr : Bool
  /-- The Symbol Translation Table, a ROM: word `v` is `TABLE(v)` (R34). No instruction and no reset writes it (log 1). -/
  table : Vector Sym 256
  /-- The event that accompanied the last step, if any (R38). The model's own field (log 4). -/
  event : Option Event
  /-- What the upstream is going to present on the input port, oldest first (R36). The model's own field (log 3). -/
  input : List PortItem
  deriving DecidableEq, Repr

/-- The state after reset (10_state.md R40). The registers R40 leaves unspecified are 0, which "an implementation drives" (log 2);
the table is the open parameter (log 1); nothing is presented on the port (log 3). -/
def State.reset : State where
  cb := []
  wp := 0
  haveRun := false
  truncW := false
  fv := false
  data := Vector.replicate 32 0#8
  err := Vector.replicate 32 false
  sub := 0#8
  sync0 := false
  sync1 := false
  missing := false
  trunc := false
  subErr := false
  table := Vector.ofFn fun v : Fin 256 => Config.tableWord (BitVec.ofNat 8 v.val)
  event := none
  input := []

end Sys2Proof.Machine
end

