-- ==== Sys2Proof/Machine/Operands.lean ====
section
/-! DEFINITION. Operand forms: the clamped run length, bit-field extraction, the fixed-offset symbol operand, the table word. -/

namespace Sys2Proof.Machine

/-- `clamp(t)`: range-limit one run length (40_expand.md R100). -/
def clamp (t : Int) : Int :=
  if t < Config.tMin then Config.tMin else if Config.tMax < t then Config.tMax else t

/-- The number of bits a `RUN t` asks for: `clamp(t)` as a count (30_encoding.md R75). -/
def runLength (t : Int) : Nat := (clamp t).toNat

/-- A bit as a number. -/
def bitValue (b : Bool) : Nat := if b then 1 else 0

/-- The unsigned integer in `w` bits from stream index `off`, the first bit most significant: the loop of 41_extract.md R120
(`v = 2*v + buf[off + j]`), over any way to read a bit. -/
def field (bit : Nat → Bool) (off : Nat) : Nat → Nat
  | 0 => 0
  | w + 1 => 2 * field bit off w + bitValue (bit (off + w))

/-- `extract(buf, off, w)` on an arbitrary bit buffer (41_extract.md R120, R127); refused outside its domain (20_memory.md R55). -/
def extract (buf : List Bool) (off w : Nat) : Except Refusal Nat :=
  if w ≤ Config.extMaxW ∧ off + w ≤ buf.length then .ok (field (fun n => buf.getD n false) off w)
  else .error (.extractOutOfDomain off w)

/-- Channel symbol `i` of a bitstream: 14 bits from stream index 27 + 17 i (41_extract.md R125, 30_encoding.md R77). -/
def symbolOf (bit : Nat → Bool) (i : Nat) : Sym :=
  BitVec.ofNat 14 (field bit (Config.firstOff + Config.stride * i) Config.symBits)

/-- `TableRead(v)`: word `v` of the table (10_state.md R34). -/
def tableRead (T : Vector Sym 256) (v : Byte) : Sym := T[v.toNat]'v.isLt

/-- The code word of a run of length `c` in format RLL: a 1 and `c - 1` zeros, first emitted first (30_encoding.md R74). -/
def runBits (c : Nat) : List Bool := true :: List.replicate (c - 1) false

end Sys2Proof.Machine
end

