-- ==== Sys2Proof/Machine/Ops.lean ====
section
/-! DEFINITION. The named operations: the bitstream buffer as memory, bit emission at the write cursor, writing the output registers, clearing the fill state, reset. -/

namespace Sys2Proof.Machine

/-- What a byte that is not listed reads as: 0x00 (10_state.md R40, `CB` is all zero at reset). -/
def unlistedByte : Byte := 0#8

/-- The canonical form of a memory: addresses strictly rising from `lo` on, inside the 74 bytes, no entry that reads as an unlisted byte. -/
def Memory.wfFrom (lo : Nat) : Memory → Bool
  | [] => true
  | (a, b) :: rest =>
    decide (lo ≤ a) && decide (a < Config.bufBytes) && decide (b ≠ unlistedByte) && Memory.wfFrom (a + 1) rest

/-- A memory is in canonical form. -/
def Memory.wf (m : Memory) : Bool := Memory.wfFrom 0 m

/-- `CBB[k]`: one byte of the byte view (10_state.md R22). -/
def Memory.readByte : Memory → Nat → Byte
  | [], _ => unlistedByte
  | (a, b) :: rest, k => if a = k then b else Memory.readByte rest k

/-- Put a byte in front of the cells above it, unless it reads as an unlisted byte. -/
def Memory.consCell (k : Nat) (b : Byte) (m : Memory) : Memory :=
  if b = unlistedByte then m else (k, b) :: m

/-- Write one byte, keeping the canonical form. -/
def Memory.writeByte : Memory → Nat → Byte → Memory
  | [], k, b => Memory.consCell k b []
  | (a, x) :: rest, k, b =>
    if k < a then Memory.consCell k b ((a, x) :: rest)
    else if k = a then Memory.consCell k b rest
    else (a, x) :: Memory.writeByte rest k b

/-- A byte with bit `p` (least significant 0) made `b`. -/
def byteWithBit (x : Byte) (p : Nat) (b : Bool) : Byte :=
  if b then x ||| (1#8 <<< p) else x &&& ~~~(1#8 <<< p)

/-- `CB[n]`: stream index `n` is bit `7 - n mod 8` of byte `n div 8` (00_scope.md R10, 20_memory.md R50). -/
def Memory.bit (m : Memory) (n : Nat) : Bool := (m.readByte (n / 8)).getLsbD (7 - n % 8)

/-- Write `CB[n]` (20_memory.md R50, R53). -/
def Memory.setBit (m : Memory) (n : Nat) (b : Bool) : Memory :=
  m.writeByte (n / 8) (byteWithBit (m.readByte (n / 8)) (7 - n % 8) b)

/-- `MemWrite(n, 1, b)`, the primitive with its domain 0 to 591 (00_scope.md section 5.2). -/
def memWrite (m : Memory) (n : Nat) (b : Bool) : Except Refusal Memory :=
  if n < Config.bufBits then .ok (m.setBit n b) else .error (.bitOutsideBuffer n)

/-- `MemRead(off, w)`, the primitive with its domain (00_scope.md section 5.2, 41_extract.md R120). -/
def memRead (m : Memory) (off w : Nat) : Except Refusal Nat :=
  if w ≤ Config.extMaxW ∧ off + w ≤ Config.bufBits then .ok (field m.bit off w)
  else .error (.extractOutOfDomain off w)

/-- `CB` as the list of its 592 bits in stream order. -/
def Memory.bits (m : Memory) : List Bool := (List.range Config.bufBits).map m.bit

/-- Emit one bit at the write cursor, or note the loss of it at the ceiling: the body of the loop of `RUN` (40_expand.md R104). -/
def emitBit (b : Bool) (s : State) : State :=
  if s.wp < Config.bufBits then { s with cb := s.cb.setBit s.wp b, wp := s.wp + 1 }
  else { s with truncW := true }

/-- Emit `n` zeros. -/
def emitZeros : Nat → State → State
  | 0, s => s
  | n + 1, s => emitZeros n (emitBit false s)

/-- Emit a run of `c` bits: a 1, then `c - 1` zeros (40_expand.md R104, 30_encoding.md R74). -/
def emitRun (c : Nat) (s : State) : State := emitZeros (c - 1) (emitBit true s)

/-- What the decode of slot 0 writes (42_translate.md R144, R145). -/
structure Slot0Result where
  sync0 : Bool
  sync1 : Bool
  sub : Byte
  subErr : Bool
  deriving DecidableEq, Repr

/-- What the decode of one data slot writes (42_translate.md R147). -/
structure DataResult where
  value : Byte
  err : Bool
  deriving DecidableEq, Repr

/-- The Decoded Frame (10_state.md R30). -/
structure Frame where
  data : Vector Byte 32
  err : Vector Bool 32
  sub : Byte
  sync0 : Bool
  sync1 : Bool
  deriving DecidableEq, Repr

/-- The two flags beside a Decoded Frame (43_frame_decode.md R160). -/
structure SideFlags where
  trunc : Bool
  subErr : Bool
  deriving DecidableEq, Repr

/-- Write the four registers of slot 0. -/
def writeSlot0 (r : Slot0Result) (s : State) : State :=
  { s with sync0 := r.sync0, sync1 := r.sync1, sub := r.sub, subErr := r.subErr }

/-- Write one data lane: `DATA[lane]` and `ERR[lane]`. -/
def writeLane (lane : Fin 32) (r : DataResult) (s : State) : State :=
  { s with data := s.data.set lane.val r.value, err := s.err.set lane.val r.err }

/-- Publish a frame: all output registers at once, with their flags and the event (43_frame_decode.md R164). -/
def publish (f : Frame) (st : SideFlags) (s : State) : State :=
  { s with
    data := f.data, err := f.err, sub := f.sub, sync0 := f.sync0, sync1 := f.sync1,
    subErr := st.subErr, trunc := st.trunc, missing := false, fv := true, event := some .frameValid }

/-- Clear the fill state (43_frame_decode.md R165). -/
def clearFill (s : State) : State :=
  { s with cb := [], wp := 0, haveRun := false, truncW := false }

/-- Take the oldest item off the input port: `rest` is what the upstream presents after it (log 3). -/
def takeItem (rest : List PortItem) (s : State) : State := { s with input := rest }

/-- Assert `rst`: every register at its reset value, no event pending, `TABLE` untouched (70_reset_and_hazards.md R210, R211). -/
def assertReset (s : State) : State :=
  { State.reset with table := s.table, input := s.input }

/-- The frame the output registers hold: none while `FV = 0` (10_state.md R31). -/
def heldFrame (s : State) : Option Frame :=
  if s.fv then some ⟨s.data, s.err, s.sub, s.sync0, s.sync1⟩ else none

/-- The two per-frame status flags: none while `FV = 0` (10_state.md R31, R40). -/
def heldSideFlags (s : State) : Option SideFlags :=
  if s.fv then some ⟨s.trunc, s.subErr⟩ else none

/-- Write the low `w` bits of `v` to `CB` from stream index `off`, most significant bit first (the layout of 20_memory.md R51).
Used only to place a word where the machine will read it (`State.withFetchWord`). -/
def placeField (m : Memory) (off : Nat) : Nat → Nat → Memory
  | 0, _ => m
  | w + 1, v => placeField (m.setBit off (v.testBit w)) (off + 1) w v

end Sys2Proof.Machine
end

