-- ==== Sys2Proof/Machine/Flags.lean ====
section
/-! DEFINITION. Every flag computation: the ceiling test behind `TRUNC_W`, the sync tests, found or not found behind `ERR` and `SUBERR`. -/

namespace Sys2Proof.Machine

/-- A run of `c` bits at cursor `wp` has to discard at least one bit: `r < c` with `r = min(c, 592 - wp)` (40_expand.md R104). -/
def discardsBit (wp c : Nat) : Bool := decide (min c (Config.bufBits - wp) < c)

/-- `t` is outside 3 to 11 (60_exceptions.md R182). -/
def outOfRange (t : Int) : Bool := decide (t < Config.tMin) || decide (Config.tMax < t)

/-- Linear search of the table words from source value `v` on, ascending, first match wins (42_translate.md R140). -/
def searchFrom : List Sym → Sym → Nat → Option Byte
  | [], _, _ => none
  | x :: rest, c, v => if x = c then some (BitVec.ofNat 8 v) else searchFrom rest c (v + 1)

/-- `translate(c)`: the least source value whose code is `c`, or none (42_translate.md R140). -/
def translate (T : Vector Sym 256) (c : Sym) : Option Byte := searchFrom T.toList c 0

/-- The outcome of slot 0 for each row of 42_translate.md R144: sync-pattern-0. -/
def sync0Result : Slot0Result := ⟨true, false, 0#8, false⟩

/-- Sync-pattern-1 (42_translate.md R144). -/
def sync1Result : Slot0Result := ⟨false, true, 0#8, false⟩

/-- `subdec(s)`: the decode of slot 0, complete (42_translate.md R145); the failure value is `SUB_FAIL` (R146). -/
def subdec (T : Vector Sym 256) (c : Sym) : Slot0Result :=
  if c = Config.s0 then sync0Result
  else if c = Config.s1 then sync1Result
  else
    match translate T c with
    | some v => ⟨false, false, v, false⟩
    | none => ⟨false, false, Config.subFail, true⟩

/-- `datadec(i, s)`: the decode of a data slot (42_translate.md R147). -/
def datadec (T : Vector Sym 256) (c : Sym) : DataResult :=
  match translate T c with
  | some v => ⟨v, false⟩
  | none => ⟨0#8, true⟩

end Sys2Proof.Machine
end

