-- ==== Sys2Proof/Machine/Expand.lean ====
section
/-! DEFINITION. Run-length expansion: the pure function `expand` (40_expand.md R102, R103) and the command `RUN` (R104). -/

namespace Sys2Proof.Machine

/-- The result of `expand`: 592 bits in stream order, the cursor, the truncation flag (40_expand.md R103). -/
structure Expansion where
  bits : List Bool
  wp : Nat
  trunc : Bool
  deriving DecidableEq, Repr

/-- Before the first run: all bits 0. -/
def emptyExpansion : Expansion := ⟨List.replicate Config.bufBits false, 0, false⟩

/-- The loop body of `expand`: store the bit, or discard it at the ceiling (40_expand.md R103). -/
def expandBit (b : Bool) (e : Expansion) : Expansion :=
  if e.wp < Config.bufBits then { e with bits := e.bits.set e.wp b, wp := e.wp + 1 }
  else { e with trunc := true }

/-- Offer the bits of a list one after another. -/
def expandBits (bs : List Bool) (e : Expansion) : Expansion := bs.foldl (fun e b => expandBit b e) e

/-- `expand(ts)`, the operational form (40_expand.md R103): every run clamped, its bits offered in order. -/
def expand (ts : List Int) : Expansion :=
  ts.foldl (fun e t => expandBits (runBits (runLength t)) e) emptyExpansion

/-- The string `1 0^(c_0 - 1) 1 0^(c_1 - 1) …` of which `expand` stores the first 592 bits (40_expand.md R103, 30_encoding.md R74). -/
def runStream (ts : List Int) : List Bool := ts.flatMap fun t => runBits (runLength t)

/-- `P_k`: the stream index at which run `k` puts its 1 bit; `P_m` is the number of bits asked for (40_expand.md R102). -/
def runStart (ts : List Int) (k : Nat) : Nat := ((ts.take k).map runLength).sum

/-- The state after `RUN t` (40_expand.md R104): the clamped run expanded at the cursor, `HAVE <- 1`, no event. -/
def runState (t : Int) (s : State) : State :=
  { emitRun (runLength t) s with haveRun := true, event := none }

/-- `RUN t` (40_expand.md R104). -/
def execRun (t : Int) (s : State) : Host.Outcome State Fault Refusal := .next (runState t s)

end Sys2Proof.Machine
end

