-- ==== Sys2Proof/Machine/Symbols.lean ====
section
/-! DEFINITION. The four symbol operations of format SYM0 and SYMD (42_translate.md), each the register writes of its rule, and the precomputed inverse map of R142. Inside the block they run within `END` (43_frame_decode.md R163); log 5. -/

namespace Sys2Proof.Machine

/-- `SYNC0` (42_translate.md R144). -/
def execSync0 (s : State) : Host.Outcome State Fault Refusal := .next (writeSlot0 sync0Result s)

/-- `SYNC1` (42_translate.md R144). -/
def execSync1 (s : State) : Host.Outcome State Fault Refusal := .next (writeSlot0 sync1Result s)

/-- `SUBCODE`: the decode of slot 0, complete (42_translate.md R145). -/
def execSubcode (c : Sym) (s : State) : Host.Outcome State Fault Refusal :=
  .next (writeSlot0 (subdec s.table c) s)

/-- `DATA`: the decode of one data slot (42_translate.md R147). -/
def execData (lane : Fin 32) (c : Sym) (s : State) : Host.Outcome State Fault Refusal :=
  .next (writeLane lane (datadec s.table c) s)

/-- A precomputed inverse map (42_translate.md R142): cells (code, source value), a code listed at most once. -/
abbrev InverseMap := List (Sym × Byte)

/-- The cell of a code, or none. -/
def inverseRead : InverseMap → Sym → Option Byte
  | [], _ => none
  | (k, v) :: rest, c => if k = c then some v else inverseRead rest c

/-- Write a cell, overwriting. -/
def inverseOverwrite (m : InverseMap) (c : Sym) (v : Byte) : InverseMap :=
  (c, v) :: m.filter fun cell => decide (cell.1 ≠ c)

/-- Write a cell only if it is empty. -/
def inverseWriteIfEmpty (m : InverseMap) (c : Sym) (v : Byte) : InverseMap :=
  if (inverseRead m c).isSome then m else (c, v) :: m

/-- The 256 source values in ascending order. -/
def sourceValues : List Byte := (List.range Config.tableSize).map (BitVec.ofNat 8)

/-- Fill by visiting `v` from 255 down to 0 and overwriting (42_translate.md R142). -/
def inverseDescending (T : Vector Sym 256) : InverseMap :=
  sourceValues.reverse.foldl (fun m v => inverseOverwrite m (tableRead T v) v) []

/-- Fill by visiting `v` from 0 up to 255 and writing only empty cells (42_translate.md R142). -/
def inverseAscending (T : Vector Sym 256) : InverseMap :=
  sourceValues.foldl (fun m v => inverseWriteIfEmpty m (tableRead T v) v) []

end Sys2Proof.Machine
end

