-- ==== Sys2Proof/Machine/FrameDecode.lean ====
section
/-! DEFINITION. The frame decode operation: the pure function `decode` of 43_frame_decode.md R160 and the command `END` (R162 to R166). -/

namespace Sys2Proof.Machine

/-- The frame that 33 symbols give, slot 0 through `subdec`, slot `i + 1` through `datadec` (43_frame_decode.md R163). -/
def frameOf (T : Vector Sym 256) (sym : Nat → Sym) : Frame where
  data := Vector.ofFn fun i : Fin 32 => (datadec T (sym (i.val + 1))).value
  err := Vector.ofFn fun i : Fin 32 => (datadec T (sym (i.val + 1))).err
  sub := (subdec T (sym 0)).sub
  sync0 := (subdec T (sym 0)).sync0
  sync1 := (subdec T (sym 0)).sync1

/-- `decode(ts)`: one frame from one run-length sequence; none for the empty sequence (43_frame_decode.md R160). -/
def decodeRuns (T : Vector Sym 256) (ts : List Int) : Option (Frame × SideFlags) :=
  if ts = [] then none
  else
    let e := expand ts
    let sym := symbolOf fun n => e.bits.getD n false
    some (frameOf T sym, ⟨e.trunc, (subdec T (sym 0)).subErr⟩)

/-- `sym[i]` of the buffer as the `RUN`s left it (10_state.md R28, 41_extract.md R125). -/
def stateSymbol (s : State) (i : Nat) : Sym := symbolOf s.cb.bit i

/-- `END_frame`: compute, publish, clear (43_frame_decode.md R163, R164, R165). -/
def endFrame (s : State) : State :=
  clearFill (publish (frameOf s.table (stateSymbol s))
    ⟨s.truncW, (subdec s.table (stateSymbol s 0)).subErr⟩ s)

/-- `END_empty`: the missing-input case (43_frame_decode.md R166). -/
def endEmpty (s : State) : State := { s with missing := true, event := some .missing }

/-- `END` (43_frame_decode.md R162): the one test is `HAVE`. -/
def execEnd (s : State) : Host.Outcome State Fault Refusal :=
  .next (if s.haveRun then endFrame s else endEmpty s)

end Sys2Proof.Machine
end

