-- ==== Sys2Proof/Machine/Dispatch.lean ====
section
/-! DEFINITION. One arm per instruction. -/

namespace Sys2Proof.Machine

/-- The effect of one instruction (30_encoding.md R84). -/
def exec (i : Instr) (s : State) : Host.Outcome State Fault Refusal :=
  match i with
  | .run t => Sys2Proof.Machine.execRun t s
  | .endCmd => Sys2Proof.Machine.execEnd s
  | .sync0 => Sys2Proof.Machine.execSync0 s
  | .sync1 => Sys2Proof.Machine.execSync1 s
  | .subcode c => Sys2Proof.Machine.execSubcode c s
  | .data lane c => Sys2Proof.Machine.execData lane c s

end Sys2Proof.Machine
end

