-- ==== Sys2Proof/WellFormed.lean ====
section
/-! DEFINITION. Well-formed instructions: those that have an encoding and are the row the decoder gives for it. -/

namespace Sys2Proof

/-- The operand of an encodable `RUN` fits the port field: 0 to 255 (10_state.md R36, 30_encoding.md R71). -/
def runOperandFits (t : Int) : Bool := decide (0 ≤ t) && decide (t < 256)

/-- A `SUBCODE` symbol is neither reserved code: rows `SYNC0` and `SYNC1` come first (30_encoding.md R78, R84). -/
def isNoSyncCode (c : Sym) : Bool := decide (c ≠ Config.s0) && decide (c ≠ Config.s1)

/-- The check on each instruction. -/
def Instr.wellFormed : Instr → Bool
  | .run t => runOperandFits t
  | .endCmd => true
  | .sync0 => true
  | .sync1 => true
  | .subcode c => isNoSyncCode c
  | .data _ _ => true

end Sys2Proof
end

