-- ==== Sys2Proof/Decode.lean ====
section
/-! DEFINITION. The opcode table as rows, the decoder of each format, and the encoder. -/

namespace Sys2Proof

/-- A row of the opcode table: taken when `word AND mask = pattern`, in ascending priority within its format (30_encoding.md R84). -/
structure OpRow where
  mnemonic : String
  format : FormatName
  pattern : Nat
  mask : Nat
  priority : Nat
  deriving DecidableEq, Repr

/-- The opcode map of 30_encoding.md R84, in priority order within each format (the table gives `RUN` and `END` no priority). -/
def opcodeRows : List OpRow :=
  [ ⟨"RUN", .CMD, 0x000, 0x100, 0⟩,
    ⟨"END", .CMD, 0x100, 0x100, 0⟩,
    ⟨"SYNC0", .SYM0, 0x0801, 0x3FFF, 1⟩,
    ⟨"SYNC1", .SYM0, 0x0012, 0x3FFF, 2⟩,
    ⟨"SUBCODE", .SYM0, 0x0000, 0x0000, 3⟩,
    ⟨"DATA", .SYMD, 0x0000, 0x0000, 1⟩ ]

/-- `(word AND mask) = match` (30_encoding.md R84). -/
def OpRow.takes (r : OpRow) (w : Nat) : Bool := decide (w &&& r.mask = r.pattern)

/-- The first row of a format, in priority order, that takes the word (30_encoding.md R84). -/
def firstRow (f : FormatName) (w : Nat) : Option OpRow :=
  opcodeRows.find? fun r => decide (r.format = f) && r.takes w

/-- `tval`: the port field read as an unsigned integer (10_state.md R36, D2). -/
def tval (x : Byte) : Int := (x.toNat : Int)

/-- Format CMD: bit 8 tells `END` from `RUN`; `cmd[7:0]` is the operand of `RUN` and ignored by `END` (30_encoding.md R71 to R73). -/
def decodeCommand (w : CmdWord) : Instr :=
  if w.getLsbD 8 then .endCmd else .run (tval (w.setWidth 8))

/-- Format SYM0: the two reserved codes first, then everything else (30_encoding.md R78). -/
def decodeSlot0 (c : Sym) : Instr :=
  if c = Config.s0 then .sync0 else if c = Config.s1 then .sync1 else .subcode c

/-- Format SYMD: one row that takes every value; no sync test (30_encoding.md R78). -/
def decodeDataSlot (lane : Fin 32) (c : Sym) : Instr := .data lane c

/-- Why the decoder turns a number away. No word of a format's own width is ever turned away (30_encoding.md R80). -/
inductive DecodeError where
  /-- The number has a bit above the format's width: it is no word of that format. -/
  | wordTooWide (f : Format) (w : Nat)
  deriving DecidableEq, Repr

/-- The decoder, total: the instruction of word `w` standing in place `f`, or a rejection by name. -/
def decode (f : Format) (w : Nat) : Except DecodeError Instr :=
  if w < 2 ^ f.width then
    match f with
    | .cmd => .ok (decodeCommand (BitVec.ofNat 9 w))
    | .sym0 => .ok (decodeSlot0 (BitVec.ofNat 14 w))
    | .symD lane => .ok (decodeDataSlot lane (BitVec.ofNat 14 w))
  else .error (.wordTooWide f w)

/-- The encoder: the place and the word of an instruction (30_encoding.md R72, R73, R78; `END` in its canonical spelling 0x100).
An integer-level `RUN` outside 0 to 255 has no encoding (R85): it is not well-formed, and the number given here is no command word of it. -/
def encode : Instr → Format × Nat
  | .run t => (.cmd, t.toNat)
  | .endCmd => (.cmd, 0x100)
  | .sync0 => (.sym0, 0x0801)
  | .sync1 => (.sym0, 0x0012)
  | .subcode c => (.sym0, c.toNat)
  | .data lane c => (.symD lane, c.toNat)

/-- The command word of `RUN t` for a port operand (30_encoding.md R72). -/
def runWord (t : Byte) : CmdWord := t.setWidth 9

/-- The canonical command word of `END` (30_encoding.md R73). -/
def endWord : CmdWord := 0x100#9

/-- Which place a bare word is read in when nothing but the word is given (`decodeTableWord`, `withFetchWord`): a reading
convention of the model, since the hardware tells the formats apart by the place (log 6). A number of at most 9 bits'
row is a command word and one of a 14-bit row a slot-0 symbol; of a row given as 16 bits the reserved codes (the rows whose
mask covers the whole word) come first, then the command words, then the other 14-bit values. -/
def bareWordFormat (nbits w : Nat) : Option Format :=
  if nbits ≤ 9 then (if w < 512 then some .cmd else none)
  else if w = 0x0801 ∨ w = 0x0012 then some .sym0
  else if nbits ≤ 14 then (if w < 16384 then some .sym0 else none)
  else if w < 512 then some .cmd
  else if w < 16384 then some .sym0
  else none

/-- The instruction the decoder reads from a bare word of the opcode table (`nbits` bits, bit 0 least significant). -/
def decodeTableWord (nbits w : Nat) : Option Instr :=
  match bareWordFormat nbits w with
  | some f => (decode f w).toOption
  | none => none

end Sys2Proof
end

