-- ==== Sys2Proof/Machine/Script.lean ====
section
/-! DEFINITION. Command scripts (30_encoding.md R85) as port items and as instructions, and how a bare word is put where the machine fetches it. -/

namespace Sys2Proof.Machine

/-- `RUNS [t_0, …]` on the port (30_encoding.md R85). -/
def runsScript (ts : List Byte) : List PortItem := ts.map fun t => .command (runWord t)

/-- `FRAME [t_0, …]` on the port: `RUNS [t_0, …]; END` (30_encoding.md R85). -/
def frameScript (ts : List Byte) : List PortItem := runsScript ts ++ [.command endWord]

/-- `RESET` on the port (30_encoding.md R85). -/
def resetScript : List PortItem := [.rst]

/-- `FRAME [t_0, …]` at the integer level (30_encoding.md R85). -/
def frameInstrs (ts : List Int) : List Instr := ts.map Instr.run ++ [.endCmd]

/-- The instruction the machine takes from the head of its input port, if it is a command (30_encoding.md R71). -/
def fetchedInstr : List PortItem → Option Instr
  | .command w :: _ => some (decodeCommand w)
  | _ => none

/-- A state in which the next step runs a bare word (log 6): a command word is put at the head of the input port; a symbol word is
put into slot 0 of `CB`, where `END` fetches it, with the cursor past it, `HAVE = 1`, and an `END` at the head of the port. -/
def placeBareWord (nbits w : Nat) (s : State) : State :=
  match bareWordFormat nbits w with
  | some .cmd => { s with input := .command (BitVec.ofNat 9 w) :: s.input }
  | some _ =>
    { s with
      cb := placeField s.cb Config.firstOff Config.symBits w
      wp := max s.wp (Config.firstOff + Config.symBits)
      haveRun := true
      input := .command endWord :: s.input }
  | none => s

end Sys2Proof.Machine
end

