-- ==== Sys2Proof/Machine/Step.lean ====
section
/-! DEFINITION. One step: the machine takes the oldest item the upstream presents. -/

namespace Sys2Proof.Machine

/-- One step (70_reset_and_hazards.md R220). With nothing presented the block holds its state and no event fires (60_exceptions.md R205,
10_state.md R38); `rst` takes it to the reset state (R210); an accepted command is decoded and executed. -/
def step (s : State) : Host.Outcome State Fault Refusal :=
  match s.input with
  | [] => .next { s with event := none }
  | .rst :: rest => .next (assertReset (takeItem rest s))
  | .command w :: rest => exec (decodeCommand w) (takeItem rest s)

/-- The state in which the next step runs the bare word `w` of the opcode table. -/
def State.withFetchWord (s : State) (nbits w : Nat) : State := placeBareWord nbits w s

/-- Run instructions one after another (integer-level scripts, 30_encoding.md R85), stopping where one does not answer a next state. -/
def runInstrs : List Instr → State → Host.Outcome State Fault Refusal
  | [], s => .next s
  | i :: rest, s =>
    match exec i s with
    | .next t => runInstrs rest t
    | .fault r => .fault r
    | .refused r => .refused r

end Sys2Proof.Machine
end

