-- ==== Sys2Proof/Machine/Accumulator.lean ====
section
/-! DEFINITION. The byte accumulator of 10_state.md R29, which an implementation may use to build the buffer a byte at a time: hidden, a function of `CB` and `WP`. -/

namespace Sys2Proof.Machine

/-- The software's way to hold the buffer: bytes already stored, the byte being gathered, and how many bits it has (10_state.md R29). -/
structure Accumulator where
  stored : List Byte
  acc : Byte
  count : Nat
  deriving DecidableEq, Repr

/-- Nothing gathered. -/
def emptyAccumulator : Accumulator := ⟨[], 0#8, 0⟩

/-- Gather one bit, most significant first; a full byte is stored. At 74 stored bytes expansion stops (40_expand.md R103). -/
def gatherBit (b : Bool) (a : Accumulator) : Accumulator :=
  if a.stored.length < Config.bufBytes then
    let x := byteWithBit a.acc (7 - a.count) b
    if a.count = 7 then ⟨a.stored ++ [x], 0#8, 0⟩ else ⟨a.stored, x, a.count + 1⟩
  else a

/-- Gather the runs of a sequence. -/
def gatherRuns (ts : List Int) : Accumulator :=
  (runStream ts).foldl (fun a b => gatherBit b a) emptyAccumulator

/-- The bytes after the flush: "the last partial byte is still flushed" (40_expand.md R103, 10_state.md R29). -/
def flushed (a : Accumulator) (k : Nat) : Byte := (a.stored ++ [a.acc]).getD k 0#8

/-- The accumulator as a function of `CB` and `WP` (10_state.md R29): byte position, bit position, accumulator. -/
def accumulatorView (s : State) : Nat × Nat × Byte := (s.wp / 8, 7 - s.wp % 8, s.cb.readByte (s.wp / 8))

end Sys2Proof.Machine
end

