-- ==== Sys2Proof/Machine/Conditions.lean ====
section
/-! DEFINITION. The four non-fatal conditions (60_exceptions.md R180 to R184): which ones an instruction raises in a state, in the order of R191. What a condition records is written by the meanings; none transfers control (R192). -/

namespace Sys2Proof.Machine

/-- The conditions (60_exceptions.md R180). -/
inductive Condition where
  /-- An `END` with `HAVE = 0` (R181). -/
  | missingInput
  /-- A `RUN t` with `t` outside 3 to 11 (R182). -/
  | outOfRangeRun
  /-- A `RUN` that discards a bit at the ceiling (R183). -/
  | bufferCeiling
  /-- A slot whose symbol is not found (R184). -/
  | translationFailure (slot : Fin 33)
  deriving DecidableEq, Repr

/-- The numeric codes (60_exceptions.md R180, D17). -/
def Condition.code : Condition → Nat
  | .missingInput => 1
  | .outOfRangeRun => 2
  | .bufferCeiling => 3
  | .translationFailure _ => 4

/-- A condition, or nothing. -/
def raiseIf (b : Bool) (c : Condition) : List Condition := if b then [c] else []

/-- Raised by `RUN t`: the range test first, then the ceiling (60_exceptions.md R191). -/
def runConditions (t : Int) (s : State) : List Condition :=
  raiseIf (outOfRange t) .outOfRangeRun ++ raiseIf (discardsBit s.wp (runLength t)) .bufferCeiling

/-- Raised by the decode of slot 0 (42_translate.md R145). -/
def slot0Conditions (T : Vector Sym 256) (c : Sym) : List Condition :=
  raiseIf (subdec T c).subErr (.translationFailure 0)

/-- Raised by the decode of a data slot (42_translate.md R147). -/
def laneConditions (T : Vector Sym 256) (lane : Fin 32) (c : Sym) : List Condition :=
  raiseIf (datadec T c).err (.translationFailure lane.succ)

/-- Raised by `END`: `MissingInput` excludes the others; else slot 0, then slots 1 to 32 ascending (60_exceptions.md R191). -/
def endConditions (s : State) : List Condition :=
  if s.haveRun then
    slot0Conditions s.table (stateSymbol s 0) ++
      (List.finRange 32).flatMap fun lane => laneConditions s.table lane (stateSymbol s (lane.val + 1))
  else [.missingInput]

/-- The conditions an instruction raises in a state, in the order they are detected (60_exceptions.md R180, R191). -/
def conditions (i : Instr) (s : State) : List Condition :=
  match i with
  | .run t => runConditions t s
  | .endCmd => endConditions s
  | .sync0 => []
  | .sync1 => []
  | .subcode c => slot0Conditions s.table c
  | .data lane c => laneConditions s.table lane c

/-- The 33 instructions the symbols of the buffer decode to, slot 0 first (30_encoding.md R78, R84). -/
def symbolInstrs (s : State) : List Instr :=
  decodeSlot0 (stateSymbol s 0) ::
    (List.finRange 32).map fun lane => decodeDataSlot lane (stateSymbol s (lane.val + 1))

end Sys2Proof.Machine
end

