-- ==== Sys2Proof/Machine/Instances.lean ====
section
/-! DEFINITION. Several instances side by side (60_exceptions.md R203): the product of independent machines with one common TABLE. -/

namespace Sys2Proof.Machine

/-- Instance `k` takes one step; the others keep their state (60_exceptions.md R203). -/
def stepAt (ms : List State) (k : Nat) : Host.Outcome (List State) Fault Refusal :=
  match ms[k]? with
  | none => .refused (.noSuchInstance k)
  | some s =>
    match step s with
    | .next t => .next (ms.set k t)
    | .fault r => .fault r
    | .refused r => .refused r

/-- All instances hold the same table (60_exceptions.md R203). -/
def shareTable (T : Vector Sym 256) (ms : List State) : Prop := ∀ s ∈ ms, s.table = T

end Sys2Proof.Machine
end

