-- ==== Sys2Proof/Machine/Ports.lean ====
section
/-! DEFINITION. The output ports (10_state.md R37) as functions of the state: `out_frame` (30_encoding.md R82), `out_status` (R32), the event ports (R38), `in_ready` (R36). -/

namespace Sys2Proof.Machine

/-- The `n`-bit word whose bit `i` is `f i`. -/
def packBits (f : Nat → Bool) : (n : Nat) → BitVec n
  | 0 => 0#0
  | n + 1 => BitVec.cons (f n) (packBits f n)

/-- Bit `n` of the packed frame (30_encoding.md R82). -/
def frameBit (f : Frame) (n : Nat) : Bool :=
  if n < 256 then (f.data.toList.getD (n / 8) 0#8).getLsbD (n % 8)
  else if n < 288 then f.err.toList.getD (n - 256) false
  else if n < 296 then f.sub.getLsbD (n - 288)
  else if n = 296 then f.sync0
  else f.sync1

/-- A Decoded Frame in format OUT (30_encoding.md R82). -/
def packFrame (f : Frame) : OutWord := packBits (frameBit f) 298

/-- `errword`: bit `i` is `ERR[i]` (30_encoding.md R82). -/
def errWord (f : Frame) : BitVec 32 := packBits (fun i => f.err.toList.getD i false) 32

/-- `out_frame` (10_state.md R37). While `FV = 0` the registers hold no value, and the port is an option with no content (R31, D5, U9). -/
def outFrame (s : State) : Option OutWord := (heldFrame s).map packFrame

/-- `STATUS` (10_state.md R32) field by field: `TRUNC` and `SUBERR` have no value while `FV = 0`. -/
structure StatusView where
  fv : Bool
  missing : Bool
  trunc : Option Bool
  subErr : Option Bool
  deriving DecidableEq, Repr

/-- Reading `STATUS`; no side effect (10_state.md R32). -/
def readStatus (s : State) : StatusView :=
  ⟨s.fv, s.missing, (heldSideFlags s).map SideFlags.trunc, (heldSideFlags s).map SideFlags.subErr⟩

/-- `out_status` bit by bit: 0 `FV`, 1 `MISSING`, 2 `TRUNC`, 3 `SUBERR` (10_state.md R32, D15). Bits 0 and 1 always have a value; bits 2 and 3
are options with no content while `FV = 0` (R31, R32). -/
def outStatus (s : State) : Vector (Option Bool) 4 :=
  #v[some (readStatus s).fv, some (readStatus s).missing, (readStatus s).trunc, (readStatus s).subErr]

/-- `out_status` as one 4-bit word, which has a value once all four bits have (10_state.md R32). -/
def statusWord (s : State) : Option (BitVec 4) :=
  (heldSideFlags s).map fun st => packBits (fun n => [s.fv, s.missing, st.trunc, st.subErr].getD n false) 4

/-- The event port `frame_valid` (10_state.md R37, R38). -/
def frameValidPort (s : State) : Bool := decide (s.event = some .frameValid)

/-- The event port `missing` (10_state.md R37, R38). -/
def missingPort (s : State) : Bool := decide (s.event = some .missing)

/-- `in_ready` between commands: always 1 (70_reset_and_hazards.md R221); it is 0 only inside a command, which is atomic here (R220). -/
def inReady (_ : State) : Bool := true

end Sys2Proof.Machine
end

