-- ==== Sys2Proof/Machine/Work.lean ====
section
/-! DEFINITION. The work bounds the source states (43_frame_decode.md R161, 70_reset_and_hazards.md R221): `RUN` and `END` once more, each operation returning beside its result how many bits it wrote or read and how many table words it compared. No notion of time (R230). -/

namespace Sys2Proof.Machine

/-- What an `END` does to its memories (43_frame_decode.md R161). -/
structure Work where
  bitReads : Nat
  comparisons : Nat
  deriving DecidableEq, Repr

/-- Emit one bit, counting it if it is written to `CB` (40_expand.md R104). -/
def emitBitCounted (b : Bool) (p : State × Nat) : State × Nat :=
  (emitBit b p.1, if p.1.wp < Config.bufBits then p.2 + 1 else p.2)

/-- Emit `n` zeros, counting the bits written. -/
def emitZerosCounted : Nat → State × Nat → State × Nat
  | 0, p => p
  | n + 1, p => emitZerosCounted n (emitBitCounted false p)

/-- `RUN t` with the number of bits it writes (40_expand.md R104). -/
def runCounted (t : Int) (s : State) : State × Nat :=
  let p := emitZerosCounted (runLength t - 1) (emitBitCounted true (s, 0))
  ({ p.1 with haveRun := true, event := none }, p.2)

/-- The loop of `extract` with the number of bits it reads (41_extract.md R120). -/
def fieldCounted (bit : Nat → Bool) (off : Nat) : Nat → Nat × Nat
  | 0 => (0, 0)
  | w + 1 =>
    let r := fieldCounted bit off w
    (2 * r.1 + bitValue (bit (off + w)), r.2 + 1)

/-- Channel symbol `i` with the number of bits read (41_extract.md R125). -/
def symbolCounted (bit : Nat → Bool) (i : Nat) : Sym × Nat :=
  let r := fieldCounted bit (Config.firstOff + Config.stride * i) Config.symBits
  (BitVec.ofNat 14 r.1, r.2)

/-- The linear search with the number of words it compares; it ends at the first match (42_translate.md R140). -/
def searchCounted : List Sym → Sym → Nat → Option Byte × Nat
  | [], _, _ => (none, 0)
  | x :: rest, c, v =>
    if x = c then (some (BitVec.ofNat 8 v), 1)
    else
      let r := searchCounted rest c (v + 1)
      (r.1, r.2 + 1)

/-- `translate(c)` with the number of words it compares (42_translate.md R140). -/
def translateCounted (T : Vector Sym 256) (c : Sym) : Option Byte × Nat := searchCounted T.toList c 0

/-- `subdec(s)` with its comparisons: none for a sync code (42_translate.md R144, R145). -/
def subdecCounted (T : Vector Sym 256) (c : Sym) : Slot0Result × Nat :=
  if c = Config.s0 then (sync0Result, 0)
  else if c = Config.s1 then (sync1Result, 0)
  else
    let r := translateCounted T c
    match r.1 with
    | some v => (⟨false, false, v, false⟩, r.2)
    | none => (⟨false, false, Config.subFail, true⟩, r.2)

/-- `datadec(i, s)` with its comparisons (42_translate.md R147). -/
def datadecCounted (T : Vector Sym 256) (c : Sym) : DataResult × Nat :=
  let r := translateCounted T c
  match r.1 with
  | some v => (⟨v, false⟩, r.2)
  | none => (⟨0#8, true⟩, r.2)

/-- Slot 0 of an `END`: read and decoded (43_frame_decode.md R163). -/
def slot0Counted (s : State) : Slot0Result × Work :=
  let c := symbolCounted s.cb.bit 0
  let r := subdecCounted s.table c.1
  (r.1, ⟨c.2, r.2⟩)

/-- A data lane of an `END`: read and decoded (43_frame_decode.md R163). -/
def laneCounted (s : State) (lane : Fin 32) : DataResult × Work :=
  let c := symbolCounted s.cb.bit (lane.val + 1)
  let r := datadecCounted s.table c.1
  (r.1, ⟨c.2, r.2⟩)

/-- `END` with its work (43_frame_decode.md R161, R162 to R166). -/
def endCounted (s : State) : State × Work :=
  if s.haveRun then
    let z := slot0Counted s
    let lanes := (List.finRange 32).map fun lane => (laneCounted s lane).2
    let f : Frame :=
      { data := Vector.ofFn fun lane : Fin 32 => (laneCounted s lane).1.value
        err := Vector.ofFn fun lane : Fin 32 => (laneCounted s lane).1.err
        sub := z.1.sub
        sync0 := z.1.sync0
        sync1 := z.1.sync1 }
    (clearFill (publish f ⟨s.truncW, z.1.subErr⟩ s),
      ⟨z.2.bitReads + (lanes.map Work.bitReads).sum, z.2.comparisons + (lanes.map Work.comparisons).sum⟩)
  else (endEmpty s, ⟨0, 0⟩)

end Sys2Proof.Machine
end

