-- ==== Sys2Proof/Safety.lean ====
section
/-! DEFINITION. The invariants the spec gives: the canonical buffer, the fill state (10_state.md R24, R26), the held frame (R30). -/

namespace Sys2Proof.Machine

/-- The fill state's invariant (10_state.md R26). -/
structure FillInv (s : State) : Prop where
  cursor_le : s.wp ≤ Config.bufBits
  unwritten_zero : ∀ n, s.wp ≤ n → s.cb.bit n = false
  empty_cursor : s.haveRun = false → s.wp = 0
  empty_trunc : s.haveRun = false → s.truncW = false
  empty_buffer : s.haveRun = false → ∀ n, s.cb.bit n = false
  trunc_full : s.truncW = true → s.wp = Config.bufBits

/-- `HAVE = 1` exactly when `WP > 0` (10_state.md R24), and then the first bit is 1 (30_encoding.md R74). -/
structure HaveInv (s : State) : Prop where
  have_iff : s.haveRun = true ↔ 0 < s.wp
  first_bit : s.haveRun = true → s.cb.bit 0 = true

/-- The held frame's invariants, which hold whenever `FV = 1` (10_state.md R30). -/
structure HeldFrameInv (s : State) : Prop where
  one_sync : s.fv = true → ¬(s.sync0 = true ∧ s.sync1 = true)
  sync_sub : s.fv = true → s.sync0 = true ∨ s.sync1 = true → s.sub = 0#8 ∧ s.subErr = false
  err_data : s.fv = true → ∀ i : Fin 32, s.err[i] = true → s.data[i] = 0#8
  subErr_sub : s.fv = true → s.subErr = true → s.sub = Config.subFail

/-- The fill state is what `expand` makes of the runs accepted since reset or the last `END` (40_expand.md R105). -/
def FilledBy (s : State) (ts : List Int) : Prop :=
  (s.haveRun = true ↔ ts ≠ []) ∧ s.wp = (expand ts).wp ∧ s.truncW = (expand ts).trunc ∧
    ∀ n, s.cb.bit n = (expand ts).bits.getD n false

/-- The whole invariant that every step keeps. -/
structure Inv (s : State) : Prop where
  canonical : s.cb.wf = true
  fill : FillInv s
  have_run : HaveInv s
  held : HeldFrameInv s

end Sys2Proof.Machine
end

