-- ==== Sys2Proof/Certificates/Slice0/Obligations.lean ====
section
/-! DEFINITION. The statements about the model. Each docstring names the rule of spec/ it comes from, and the spec's own mark ([derived], [decision]) or the log entry where one stands behind it. -/

open Sys2Proof Sys2Proof.Machine

/-! ### Encoding -/

/-- A few words of 30_encoding.md R72, R73, R78, written out bit by bit, decode to the instruction they stand for. Sanity. -/
def Obligations.WrittenOutWordsDecode : Prop :=
  decode .cmd 0b000000101 = .ok (.run 5) ∧ decode .cmd 0b011111111 = .ok (.run 255) ∧
  decode .cmd 0b100000000 = .ok .endCmd ∧ decode .cmd 0b101100101 = .ok .endCmd ∧
  decode .sym0 0b00100000000001 = .ok .sync0 ∧ decode .sym0 0b00000000010010 = .ok .sync1 ∧
  decode .sym0 0b10100000000001 = .ok (.subcode 0x2801#14) ∧
  decode (.symD 7) 0b00100000000001 = .ok (.data 7 0x0801#14)

/-- 30_encoding.md R72, R73 (the spec's decision D14): bit 8 selects, `cmd[7:0]` is the operand of `RUN` and ignored by `END`, whose
canonical spelling is 0x100. -/
def Obligations.CommandWordSelectsByBitEight : Prop :=
  (∀ w : CmdWord,
    (w &&& 0x100#9 = 0x000#9 → decodeCommand w = .run ((w.setWidth 8).toNat : Int)) ∧
    (w &&& 0x100#9 = 0x100#9 → decodeCommand w = .endCmd)) ∧
  encode .endCmd = (.cmd, 0x100)

/-- Decoding the encoding of a well-formed instruction gives it back, in its own place (30_encoding.md sections 2, 6, 9). -/
def Obligations.DecodeAfterEncode : Prop :=
  ∀ i : Instr, i.wellFormed = true → decode (encode i).1 (encode i).2 = .ok i

/-- Each word has one meaning: what it decodes to is well-formed and encodes back to it, but for the 255 other spellings of `END` (30_encoding.md section 2). -/
def Obligations.EncodeAfterDecode : Prop :=
  ∀ (f : Format) (w : Nat) (i : Instr), decode f w = .ok i →
    i.wellFormed = true ∧ (encode i).1 = f ∧
      ((encode i).2 = w ∨ (i = .endCmd ∧ 0x100 ≤ w ∧ w ≤ 0x1FF))

/-- 30_encoding.md R84: a decoder takes the first row, in priority order, whose `(value AND mask) = match`; every word of a format's width has one.
A wider number is turned away by name. -/
def Obligations.DecoderTakesTheFirstMatchingRow : Prop :=
  ∀ (f : Format) (w : Nat),
    (w < 2 ^ f.width → ∃ i r, decode f w = .ok i ∧ firstRow f.name w = some r ∧ r.mnemonic = i.mnemonic) ∧
    (2 ^ f.width ≤ w → decode f w = .error (.wordTooWide f w))

/-! ### clamp and expand -/

/-- 40_expand.md R100: the value of `clamp`, and when `OutOfRangeRun` is raised. -/
def Obligations.ClampLimitsARunLength : Prop :=
  ∀ t : Int,
    (t < 3 → clamp t = 3) ∧ (11 < t → clamp t = 11) ∧ (3 ≤ t → t ≤ 11 → clamp t = t) ∧
    3 ≤ clamp t ∧ clamp t ≤ 11 ∧
    ∀ s : State, Condition.outOfRangeRun ∈ conditions (.run t) s ↔ (t < 3 ∨ 11 < t)

/-- The laws of `clamp` that 40_expand.md section 1 derives. -/
def Obligations.ClampIsIdempotentAndMonotone : Prop :=
  ∀ t u : Int, clamp (clamp t) = clamp t ∧ (clamp t = t ↔ 3 ≤ t ∧ t ≤ 11) ∧
    (t ≤ u → clamp t ≤ clamp u) ∧ clamp t = min 11 (max 3 t)

/-- The closed form of `expand` that 40_expand.md section 2 derives from its pseudocode: the cursor, the flag, and which bits are 1. -/
def Obligations.ExpandClosedForm : Prop :=
  ∀ ts : List Int,
    (expand ts).bits.length = 592 ∧
    (expand ts).wp = min (runStart ts ts.length) 592 ∧
    ((expand ts).trunc = true ↔ 592 < runStart ts ts.length) ∧
    ∀ n, n < 592 → ((expand ts).bits.getD n false = true ↔ ∃ k, k < ts.length ∧ n = runStart ts k)

/-- The first bit of a non-empty sequence is 1, and neighbouring 1 bits are 3 to 11 apart (derived in 30_encoding.md section 3). -/
def Obligations.OnesAreThreeToElevenApart : Prop :=
  ∀ ts : List Int, ts ≠ [] →
    (expand ts).bits.getD 0 false = true ∧
    ∀ a b, a < b → (expand ts).bits.getD a false = true → (expand ts).bits.getD b false = true →
      (∀ n, a < n → n < b → (expand ts).bits.getD n false = false) → 3 ≤ b - a ∧ b - a ≤ 11

/-! ### The bitstream buffer and its two views -/

/-- 20_memory.md R50, R53 and the domain of `MemWrite`: where a bit write lands in the bytes, that it changes no other bit, that it keeps the
canonical form, and that an index outside 0 to 591 is refused. -/
def Obligations.BitWriteLandsMostSignificantFirst : Prop :=
  ∀ (m : Memory) (n : Nat) (b : Bool), m.wf = true →
    (592 ≤ n → memWrite m n b = .error (.bitOutsideBuffer n)) ∧
    (n < 592 → ∃ m', memWrite m n b = .ok m' ∧ m'.wf = true ∧
      (∀ p, p < 8 → (m'.readByte (n / 8)).getLsbD p =
        if p = 7 - n % 8 then b else (m.readByte (n / 8)).getLsbD p) ∧
      (∀ k, k ≠ n / 8 → m'.readByte k = m.readByte k) ∧
      (∀ k, m'.bit k = if k = n then b else m.bit k))

/-- 10_state.md R22: a byte of the byte view is the sum of its bits, the lowest stream index most significant; there are 74 bytes. -/
def Obligations.ByteViewIsTheSumOfItsBits : Prop :=
  ∀ (m : Memory) (k : Nat),
    (m.readByte k).toNat = (Finset.range 8).sum (fun j => bitValue (m.bit (8 * k + j)) * 2 ^ (7 - j)) ∧
    (m.wf = true → 74 ≤ k → m.readByte k = 0#8)

/-- Two buffers with the same 592 bits are the same data (the canonical form; the model's own way to hold `CB`, log 8). -/
def Obligations.EqualBufferBitsAreEqualData : Prop :=
  ∀ m m' : Memory, m.wf = true → m'.wf = true → (∀ n, n < 592 → m.bit n = m'.bit n) → m = m'

/-- 41_extract.md R120 (the spec's decisions D9, D10): the value of `extract` in its domain, and that it has none outside. -/
def Obligations.ExtractIsTheBitSum : Prop :=
  ∀ (buf : List Bool) (off w : Nat),
    (w ≤ 31 → off + w ≤ buf.length →
      extract buf off w =
          .ok ((Finset.range w).sum fun j => bitValue (buf.getD (off + j) false) * 2 ^ (w - 1 - j)) ∧
        (Finset.range w).sum (fun j => bitValue (buf.getD (off + j) false) * 2 ^ (w - 1 - j)) < 2 ^ w) ∧
    (31 < w ∨ buf.length < off + w → extract buf off w = .error (.extractOutOfDomain off w))

/-- The concatenation law that 41_extract.md section 1 derives. -/
def Obligations.ExtractOfAdjacentFieldsConcatenates : Prop :=
  ∀ (buf : List Bool) (off a b : Nat), a + b ≤ 31 → off + (a + b) ≤ buf.length →
    ∃ x y, extract buf off a = .ok x ∧ extract buf (off + a) b = .ok y ∧
      extract buf off (a + b) = .ok (x * 2 ^ b + y)

/-- 41_extract.md R125 and 30_encoding.md R77: the 33 reads are inside the domain, and which bits of `CB` make a symbol. -/
def Obligations.FixedOffsetReadsGiveTheSymbols : Prop :=
  ∀ (m : Memory) (i : Nat), i < 33 →
    memRead m (27 + 17 * i) 14 = .ok (symbolOf m.bit i).toNat ∧
    extract m.bits (27 + 17 * i) 14 = .ok (symbolOf m.bit i).toNat ∧
    ∀ j, j ≤ 13 → (symbolOf m.bit i).getLsbD (13 - j) = m.bit (27 + 17 * i + j)

/-! ### translate -/

/-- 42_translate.md R141: first match wins, in ascending source value. -/
def Obligations.TranslateReturnsTheFirstMatch : Prop :=
  ∀ (T : Vector Sym 256) (c : Sym),
    (∀ v : Byte, Machine.translate T c = some v ↔
      tableRead T v = c ∧ ∀ u : Byte, u.toNat < v.toNat → tableRead T u ≠ c) ∧
    (Machine.translate T c = none ↔ ∀ u : Byte, tableRead T u ≠ c)

/-- Translating the code of `v` gives an index not above `v`, and always `v` itself exactly for an injective table (42_translate.md section 1, derived). -/
def Obligations.TranslateInvertsAnInjectiveTable : Prop :=
  ∀ T : Vector Sym 256,
    (∀ v : Byte, ∃ u : Byte, Machine.translate T (tableRead T v) = some u ∧ u.toNat ≤ v.toNat) ∧
    ((∀ v : Byte, Machine.translate T (tableRead T v) = some v) ↔
      ∀ u v : Byte, tableRead T u = tableRead T v → u = v)

/-- Both ways to precompute the inverse map give what the linear search gives, duplicate codes included (42_translate.md section 1, derived). -/
def Obligations.InverseMapsAgreeWithTheSearch : Prop :=
  ∀ (T : Vector Sym 256) (c : Sym),
    inverseRead (inverseDescending T) c = Machine.translate T c ∧
    inverseRead (inverseAscending T) c = Machine.translate T c

/-! ### The command RUN -/

/-- 40_expand.md R104: what `RUN t` writes, and that it writes nothing else; it completes in every state with a canonical buffer.
Corner case (1), a full buffer, is the spec's decision D16; that a crossing run is cut at the bit is its decision D23. -/
def Obligations.RunExpandsAtTheCursor : Prop :=
  ∀ (t : Int) (s : State), s.cb.wf = true →
    ∃ u, exec (.run t) s = .next u ∧
      (let c := (clamp t).toNat
       let r := min c (592 - s.wp)
       u.wp = s.wp + r ∧
       u.truncW = (s.truncW || decide (r < c)) ∧
       u.haveRun = true ∧ u.event = none ∧ u.cb.wf = true ∧
       ∀ n, u.cb.bit n =
         if n = s.wp ∧ 1 ≤ r then true
         else if s.wp < n ∧ n < s.wp + r then false
         else s.cb.bit n) ∧
      u = { s with cb := u.cb, wp := u.wp, truncW := u.truncW, haveRun := true, event := none }

/-- 70_reset_and_hazards.md R222 (the spec's decision D16): once `WP = 592` a `RUN` is accepted and discarded; it is not kept for the next frame, and the
only indication is `TRUNC = 1` at the `END`, which publishes what it would have published without the `RUN`. -/
def Obligations.RunAtTheCeilingIsDiscarded : Prop :=
  ∀ (t : Int) (s : State), s.wp = 592 →
    ∃ u, exec (.run t) s = .next u ∧
      u = { s with truncW := true, haveRun := true, event := none } ∧
      ∃ v, exec .endCmd u = .next v ∧ v.trunc = true ∧
        v.wp = 0 ∧ (∀ n, v.cb.bit n = false) ∧ v.haveRun = false ∧ v.truncW = false ∧
        ∀ v', s.haveRun = true → exec .endCmd s = .next v' → v = { v' with trunc := true }

/-- 60_exceptions.md R182: after the command the state is the same as if `RUN clamp(t)` had been given. -/
def Obligations.OutOfRangeRunActsAsItsClampedValue : Prop :=
  ∀ (t : Int) (s : State),
    exec (.run t) s = exec (.run (clamp t)) s ∧
    (Condition.outOfRangeRun ∈ conditions (.run t) s ↔ t < 3 ∨ 11 < t)

/-- `BufferCeiling` is raised exactly when a bit is discarded, and then `TRUNC_W` is set (60_exceptions.md section 1). -/
def Obligations.CeilingConditionSetsTheWorkingFlag : Prop :=
  ∀ (t : Int) (s : State),
    (Condition.bufferCeiling ∈ conditions (.run t) s ↔ 592 < s.wp + (clamp t).toNat) ∧
    ∀ u, exec (.run t) s = .next u →
      (u.truncW = true ↔ s.truncW = true ∨ Condition.bufferCeiling ∈ conditions (.run t) s)

/-- Streaming equals batch, a law 40_expand.md section 3 derives: from a cleared fill state, the `RUN`s of a sequence (integer level)
leave what `expand` gives, and touch nothing but the fill state and the event. -/
def Obligations.StreamingEqualsBatch : Prop :=
  ∀ (ts : List Int) (s : State), ts ≠ [] → s.cb.wf = true → FillInv s → s.haveRun = false →
    ∃ u, runInstrs (ts.map Instr.run) s = .next u ∧
      (∀ n, n < 592 → u.cb.bit n = (expand ts).bits.getD n false) ∧
      u.wp = (expand ts).wp ∧ u.truncW = (expand ts).trunc ∧ u.haveRun = true ∧
      u = { s with cb := u.cb, wp := u.wp, truncW := u.truncW, haveRun := true, event := none }

/-! ### The symbol operations -/

/-- 42_translate.md R144: which value of slot 0 is which sync code, and what each writes; nothing else is written, no condition is raised. -/
def Obligations.SyncCodesSetTheirFlag : Prop :=
  decodeSlot0 0x0801#14 = .sync0 ∧ decodeSlot0 0x0012#14 = .sync1 ∧
  ∀ s : State,
    exec .sync0 s = .next { s with sync0 := true, sync1 := false, sub := 0x00#8, subErr := false } ∧
    exec .sync1 s = .next { s with sync0 := false, sync1 := true, sub := 0x00#8, subErr := false } ∧
    conditions .sync0 s = [] ∧ conditions .sync1 s = []

/-- 42_translate.md R145: the decode of slot 0, complete, with the condition it raises. The failure value 0xFF is the spec's decision D7 (R146). -/
def Obligations.SubcodeDecodesSlotZero : Prop :=
  ∀ (c : Sym) (s : State),
    (c = 0x0801#14 →
      exec (.subcode c) s = .next { s with sync0 := true, sync1 := false, sub := 0x00#8, subErr := false } ∧
      conditions (.subcode c) s = []) ∧
    (c = 0x0012#14 →
      exec (.subcode c) s = .next { s with sync0 := false, sync1 := true, sub := 0x00#8, subErr := false } ∧
      conditions (.subcode c) s = []) ∧
    (c ≠ 0x0801#14 → c ≠ 0x0012#14 →
      (∀ v, Machine.translate s.table c = some v →
        exec (.subcode c) s = .next { s with sync0 := false, sync1 := false, sub := v, subErr := false } ∧
        conditions (.subcode c) s = []) ∧
      (Machine.translate s.table c = none →
        exec (.subcode c) s = .next { s with sync0 := false, sync1 := false, sub := 0xFF#8, subErr := true } ∧
        conditions (.subcode c) s = [.translationFailure 0]))

/-- 42_translate.md R147: the decode of one data slot; no other lane, no sync flag, not `SUB`. -/
def Obligations.DataDecodesItsLaneOnly : Prop :=
  ∀ (lane : Fin 32) (c : Sym) (s : State),
    ∃ u, exec (.data lane c) s = .next u ∧
      (∀ v, Machine.translate s.table c = some v →
        u.data[lane] = v ∧ u.err[lane] = false ∧ conditions (.data lane c) s = []) ∧
      (Machine.translate s.table c = none →
        u.data[lane] = 0x00#8 ∧ u.err[lane] = true ∧
        conditions (.data lane c) s = [.translationFailure lane.succ]) ∧
      (∀ other : Fin 32, other ≠ lane → u.data[other] = s.data[other] ∧ u.err[other] = s.err[other]) ∧
      u = { s with data := u.data, err := u.err }

/-! ### The command END -/

/-- 43_frame_decode.md R166 (the event and the flag are the spec's decision D6): the missing-input case changes nothing else. -/
def Obligations.EndWithoutInputOnlySignals : Prop :=
  ∀ s : State, s.haveRun = false →
    exec .endCmd s = .next { s with missing := true, event := some .missing } ∧
    conditions .endCmd s = [.missingInput]

/-- 43_frame_decode.md R163, R164, R165 (the spec's decisions D4, D5, D7): compute from the buffer, publish all at once, clear the fill state. -/
def Obligations.EndPublishesTheFrameAndClears : Prop :=
  ∀ s : State, s.haveRun = true →
    ∃ u, exec .endCmd s = .next u ∧
      (∀ i : Fin 32,
        (∀ v, Machine.translate s.table (symbolOf s.cb.bit (i.val + 1)) = some v → u.data[i] = v ∧ u.err[i] = false) ∧
        (Machine.translate s.table (symbolOf s.cb.bit (i.val + 1)) = none → u.data[i] = 0x00#8 ∧ u.err[i] = true)) ∧
      (symbolOf s.cb.bit 0 = 0x0801#14 →
        u.sync0 = true ∧ u.sync1 = false ∧ u.sub = 0x00#8 ∧ u.subErr = false) ∧
      (symbolOf s.cb.bit 0 = 0x0012#14 →
        u.sync0 = false ∧ u.sync1 = true ∧ u.sub = 0x00#8 ∧ u.subErr = false) ∧
      (symbolOf s.cb.bit 0 ≠ 0x0801#14 → symbolOf s.cb.bit 0 ≠ 0x0012#14 →
        u.sync0 = false ∧ u.sync1 = false ∧
        (∀ v, Machine.translate s.table (symbolOf s.cb.bit 0) = some v → u.sub = v ∧ u.subErr = false) ∧
        (Machine.translate s.table (symbolOf s.cb.bit 0) = none → u.sub = 0xFF#8 ∧ u.subErr = true)) ∧
      u.trunc = s.truncW ∧ u.missing = false ∧ u.fv = true ∧ u.event = some .frameValid ∧
      (∀ n, u.cb.bit n = false) ∧ u.cb.wf = true ∧ u.wp = 0 ∧ u.haveRun = false ∧ u.truncW = false ∧
      u.table = s.table ∧ u.input = s.input

/-- `END` is the composition of the instructions its 33 symbols decode to, published at once (30_encoding.md sections 6 and 9, 43_frame_decode.md section 2):
the symbol rows of the opcode table run inside `END` (log 5). -/
def Obligations.EndRunsItsDecodedSymbols : Prop :=
  ∀ s : State, s.haveRun = true →
    ∃ u, runInstrs (symbolInstrs s) s = .next u ∧
      exec .endCmd s = .next { u with
        trunc := s.truncW, missing := false, fv := true, event := some .frameValid,
        cb := [], wp := 0, haveRun := false, truncW := false }

/-- Which conditions a command raises, and in which order (60_exceptions.md sections 1 and 3). A `RUN`: the range test, then the ceiling, neither hiding the
other; that a `RUN` lists the ceiling once, however many bits it discards, is the model's choice (log 9). An `END` without input: that condition alone. An `END` with input: one failure for every slot not found (slot 0 only if it is no sync code),
ascending, each reported in its own flag. -/
def Obligations.ConditionsAreReportedInOrder : Prop :=
  ∀ s : State,
    (∀ t, conditions (.run t) s =
      (if t < 3 ∨ 11 < t then [.outOfRangeRun] else []) ++
        (if 592 < s.wp + (clamp t).toNat then [.bufferCeiling] else [])) ∧
    (s.haveRun = false → conditions .endCmd s = [.missingInput]) ∧
    (s.haveRun = true →
      (∀ c, c ∈ conditions .endCmd s → ∃ k : Fin 33, c = .translationFailure k) ∧
      (∀ k : Fin 33, Condition.translationFailure k ∈ conditions .endCmd s ↔
        Machine.translate s.table (symbolOf s.cb.bit k.val) = none ∧
          (k = 0 → symbolOf s.cb.bit 0 ≠ 0x0801#14 ∧ symbolOf s.cb.bit 0 ≠ 0x0012#14)) ∧
      (conditions .endCmd s).Pairwise (fun a b => ∀ j k, a = .translationFailure j → b = .translationFailure k → j < k) ∧
      ∀ u, exec .endCmd s = .next u →
        (Condition.translationFailure 0 ∈ conditions .endCmd s ↔ u.subErr = true) ∧
        ∀ lane : Fin 32, Condition.translationFailure lane.succ ∈ conditions .endCmd s ↔ u.err[lane] = true)

/-- 10_state.md R38 (the spec's decision D6): exactly one event accompanies every `END`, and none a `RUN`. -/
def Obligations.OneEventPerEndAndNonePerRun : Prop :=
  ∀ (s u : State),
    (exec .endCmd s = .next u → u.event = if s.haveRun then some .frameValid else some .missing) ∧
    (∀ t, exec (.run t) s = .next u → u.event = none)

/-- The frame an `END` produces depends on the 462 symbol bits and `TABLE` only (20_memory.md section 4, derived): header, merging and padding bits, the cursor
and the old registers show nowhere but in `TRUNC`. -/
def Obligations.FrameDependsOnSymbolBitsOnly : Prop :=
  ∀ s s' u u' : State, s.haveRun = true → s'.haveRun = true → s.table = s'.table →
    (∀ i j, i < 33 → j < 14 → s.cb.bit (27 + 17 * i + j) = s'.cb.bit (27 + 17 * i + j)) →
    exec .endCmd s = .next u → exec .endCmd s' = .next u' →
    heldFrame u = heldFrame u' ∧ u.subErr = u'.subErr ∧ outFrame u = outFrame u'

/-- A lane depends on its own symbol and `TABLE` only (42_translate.md R148). -/
def Obligations.LanesAreIndependent : Prop :=
  ∀ (lane : Fin 32) (s s' u u' : State), s.haveRun = true → s'.haveRun = true → s.table = s'.table →
    (∀ j, j < 14 → s.cb.bit (27 + 17 * (lane.val + 1) + j) = s'.cb.bit (27 + 17 * (lane.val + 1) + j)) →
    exec .endCmd s = .next u → exec .endCmd s' = .next u' →
    u.data[lane] = u'.data[lane] ∧ u.err[lane] = u'.err[lane]

/-- Symbols that lie wholly beyond the written bits read 0x0000 (41_extract.md section 2; unwritten bits read 0 by the spec's decision D4). -/
def Obligations.SymbolsBeyondTheCursorAreZero : Prop :=
  ∀ (s : State) (i : Nat), FillInv s → s.wp ≤ 27 + 17 * i → symbolOf s.cb.bit i = 0x0000#14

/-! ### decode -/

/-- 43_frame_decode.md R160: `decode` chains expand, extract, subdec and datadec; it has no result exactly for the empty sequence. -/
def Obligations.DecodeChainsTheThreeStages : Prop :=
  ∀ (T : Vector Sym 256) (ts : List Int),
    (ts = [] → decodeRuns T ts = none) ∧
    (ts ≠ [] → ∃ F st, decodeRuns T ts = some (F, st) ∧ st.trunc = (expand ts).trunc ∧
      (∃ c : Sym, extract (expand ts).bits 27 14 = .ok c.toNat ∧
        (⟨F.sync0, F.sync1, F.sub, st.subErr⟩ : Slot0Result) = subdec T c) ∧
      ∀ lane : Fin 32, ∃ c : Sym, extract (expand ts).bits (27 + 17 * (lane.val + 1)) 14 = .ok c.toNat ∧
        (⟨F.data[lane], F.err[lane]⟩ : DataResult) = datadec T c)

/-- Decoding depends on the clamped run lengths only (43_frame_decode.md section 1, corner case 4, derived). -/
def Obligations.DecodeOfClampedRunsIsTheSame : Prop :=
  ∀ (T : Vector Sym 256) (ts : List Int), decodeRuns T (ts.map clamp) = decodeRuns T ts

/-- Runs after the buffer is full change at most `TRUNC` (43_frame_decode.md section 1, corner case 5, derived; rests on the spec's decision D23). -/
def Obligations.ExcessRunsChangeAtMostTrunc : Prop :=
  ∀ (T : Vector Sym 256) (ts us : List Int) (F : Frame) (st : SideFlags),
    (expand ts).wp = 592 → decodeRuns T ts = some (F, st) →
    ∃ st', decodeRuns T (ts ++ us) = some (F, st') ∧ st'.subErr = st.subErr

/-- The round trip of 42_translate.md section 1: a value whose code has no lower index and stands in a data slot is decoded, with its error flag clear. -/
def Obligations.EncodedValueRoundTrips : Prop :=
  ∀ (T : Vector Sym 256) (ts : List Int) (v : Byte) (lane : Fin 32),
    (∀ u : Byte, u.toNat < v.toNat → tableRead T u ≠ tableRead T v) → ts ≠ [] →
    extract (expand ts).bits (27 + 17 * (lane.val + 1)) 14 = .ok (tableRead T v).toNat →
    ∃ F st, decodeRuns T ts = some (F, st) ∧ F.data[lane] = v ∧ F.err[lane] = false

/-- The port-level machine refines `decode` (43_frame_decode.md section 2, derived): from a cleared fill state the script FRAME ts, put on the port, ends
with what `decode(ts)` gives; no event before the `END`; the fill state is cleared again. -/
def Obligations.FrameScriptRefinesDecode : Prop :=
  ∀ (ts : List Byte) (rest : List PortItem) (s : State),
    s.cb.wf = true → FillInv s → s.haveRun = false → s.input = frameScript ts ++ rest →
    (∀ k, 1 ≤ k → k ≤ ts.length → ∃ u : State, core.run k s = .next u ∧ u.event = none) ∧
    ∃ u : State, core.run (ts.length + 1) s = .next u ∧
      u.input = rest ∧ u.table = s.table ∧
      u.cb = [] ∧ u.wp = 0 ∧ u.haveRun = false ∧ u.truncW = false ∧
      (decodeRuns s.table (ts.map tval) = none →
        u = { s with missing := true, event := some .missing, input := rest }) ∧
      ∀ F st, decodeRuns s.table (ts.map tval) = some (F, st) →
        heldFrame u = some F ∧ heldSideFlags u = some st ∧
          u.missing = false ∧ u.event = some .frameValid

/-! ### The step and the whole machine -/

/-- A step takes the oldest item of the port (10_state.md R36, 70_reset_and_hazards.md section 3): a command word is executed as what it decodes to; with nothing
presented the block holds its state (60_exceptions.md section 6) and no event fires. The queue is the model's own (log 3). -/
def Obligations.StepExecutesTheDecodedCommand : Prop :=
  ∀ (s : State) (rest : List PortItem),
    (∀ w i, s.input = .command w :: rest → decode .cmd w.toNat = .ok i →
      step s = exec i { s with input := rest }) ∧
    (s.input = [] → step s = .next { s with event := none })

/-- Reset (10_state.md section 11, 70_reset_and_hazards.md section 1; the spec's decision D12): from every state, the values that the reset table gives; `TABLE`
as before. Nothing is said of the registers it leaves unspecified but that they hold no value (log 2). That the items the upstream has still to
present stay in the queue is the model's choice (log 3). -/
def Obligations.ResetClearsAndKeepsTheTable : Prop :=
  ∀ (s : State) (rest : List PortItem), s.input = .rst :: rest →
    ∃ u, step s = .next u ∧
      (∀ n, u.cb.bit n = false) ∧ u.wp = 0 ∧ u.haveRun = false ∧ u.truncW = false ∧
      u.fv = false ∧ u.missing = false ∧ u.event = none ∧ heldFrame u = none ∧ heldSideFlags u = none ∧
      u.table = s.table ∧ u.input = rest

/-- 70_reset_and_hazards.md R221: every step completes; the machine never stops with a fault or a refusal. -/
def Obligations.EveryStepCompletes : Prop :=
  (∀ s : State, ∃ u, step s = .next u) ∧ ∀ (i : Instr) (s : State), ∃ u, exec i s = .next u

/-- The invariant of 10_state.md sections 3 and 5 (fill state, held frame) and of the model's canonical buffer: every step keeps it. -/
def Obligations.EveryStepKeepsTheInvariant : Prop :=
  ∀ s u : State, Inv s → step s = .next u → Inv u

/-- The reset state has the invariant (10_state.md section 3). -/
def Obligations.ResetHasTheInvariant : Prop := Inv State.reset

/-- The fill state is always `expand` of the runs since reset or the last `END` (10_state.md section 3, 40_expand.md section 3): which runs those are after each step. -/
def Obligations.FillStateIsAlwaysAnExpansion : Prop :=
  ∀ (s u : State) (ts : List Int), s.cb.wf = true → FilledBy s ts → step s = .next u →
    (s.input = [] → FilledBy u ts) ∧
    (∀ rest, s.input = .rst :: rest → FilledBy u []) ∧
    (∀ rest w t, s.input = .command w :: rest → decodeCommand w = .run t → FilledBy u (ts ++ [t])) ∧
    (∀ rest w, s.input = .command w :: rest → decodeCommand w = .endCmd → FilledBy u [])

/-- `TABLE` is one value for the whole execution (20_memory.md R63; the spec's decision D11): no instruction and no step, reset included, changes it. -/
def Obligations.TableNeverChanges : Prop :=
  (∀ s u : State, step s = .next u → u.table = s.table) ∧
  ∀ (i : Instr) (s u : State), exec i s = .next u → u.table = s.table

/-- The output registers are written only by an `END` that finds `HAVE = 1` (10_state.md sections 5 and 12), or lost by reset. -/
def Obligations.OutputRegistersChangeOnlyAtAFrame : Prop :=
  ∀ s u : State, step s = .next u →
    (∀ rest, s.input ≠ .rst :: rest) →
    (∀ w rest, s.input = .command w :: rest → decodeCommand w = .endCmd → s.haveRun = false) →
    heldFrame u = heldFrame s ∧ heldSideFlags u = heldSideFlags s ∧ u.fv = s.fv ∧ u.data = s.data ∧ u.err = s.err ∧
      u.sub = s.sub ∧ u.sync0 = s.sync0 ∧ u.sync1 = s.sync1 ∧ u.trunc = s.trunc ∧ u.subErr = s.subErr

/-- `FV` becomes 1 for good at the first frame and only reset clears it (10_state.md R31). -/
def Obligations.FrameValidFallsOnlyByReset : Prop :=
  ∀ s u : State, step s = .next u →
    (s.fv = true → u.fv = false → ∃ rest, s.input = .rst :: rest) ∧
    (s.fv = false → u.fv = true →
      ∃ w rest, s.input = .command w :: rest ∧ decodeCommand w = .endCmd ∧ s.haveRun = true)

/-- While `FV = 0` the contents of the output registers show nowhere (10_state.md section 5, 93_implementation_defined.md U9): two states that differ only in them step to
the same outputs, and to the same state once a frame is held. So no run rests on the values log 2 chose. -/
def Obligations.PreFrameContentsNeverShow : Prop :=
  ∀ (s u u' : State) (d : Vector Byte 32) (e : Vector Bool 32) (b : Byte) (y0 y1 tr se : Bool),
    s.fv = false → step s = .next u →
    step { s with data := d, err := e, sub := b, sync0 := y0, sync1 := y1, trunc := tr, subErr := se } = .next u' →
    outFrame u = outFrame u' ∧ readStatus u = readStatus u' ∧ outStatus u = outStatus u' ∧ u.event = u'.event ∧
    (u.fv = true → u = u') ∧
    u' = { u with
      data := u'.data, err := u'.err, sub := u'.sub, sync0 := u'.sync0, sync1 := u'.sync1,
      trunc := u'.trunc, subErr := u'.subErr }

/-! ### Ports, instances, work, the hidden accumulator -/

/-- 30_encoding.md R82 (the spec's decision D15): where each register stands in `out_frame`, and in the error word. -/
def Obligations.OutFramePacksTheRegisters : Prop :=
  ∀ s : State, s.fv = true →
    ∃ w f, outFrame s = some w ∧ heldFrame s = some f ∧
      (∀ i : Fin 32, w.extractLsb' (8 * i.val) 8 = s.data[i] ∧ w.getLsbD (256 + i.val) = s.err[i] ∧
        (errWord f).getLsbD i.val = s.err[i]) ∧
      w.extractLsb' 288 8 = s.sub ∧ w.getLsbD 296 = s.sync0 ∧ w.getLsbD 297 = s.sync1

/-- `STATUS` (10_state.md section 6; the spec's decisions D15, D21): `FV` and `MISSING` can be read in every state, `TRUNC`, `SUBERR` and the frame have content
exactly while `FV = 1` (10_state.md section 5). -/
def Obligations.StatusAndFrameReads : Prop :=
  ∀ s : State,
    (readStatus s).fv = s.fv ∧ (readStatus s).missing = s.missing ∧
    (outStatus s)[0] = some s.fv ∧ (outStatus s)[1] = some s.missing ∧
    (s.fv = false → outFrame s = none ∧ (readStatus s).trunc = none ∧ (readStatus s).subErr = none ∧
      (outStatus s)[2] = none ∧ (outStatus s)[3] = none) ∧
    (s.fv = true → (readStatus s).trunc = some s.trunc ∧ (readStatus s).subErr = some s.subErr ∧
      (outStatus s)[2] = some s.trunc ∧ (outStatus s)[3] = some s.subErr ∧
      ∃ w, statusWord s = some w ∧ w.getLsbD 0 = true ∧ w.getLsbD 1 = s.missing ∧ w.getLsbD 2 = s.trunc ∧
        w.getLsbD 3 = s.subErr)

/-- Instances do not interfere (60_exceptions.md section 6, derived): steps of two different instances commute, a step of one leaves the others alone, and they keep
one common table. -/
def Obligations.InstancesDoNotInterfere : Prop :=
  ∀ (ms : List State) (j k : Nat), j < ms.length → k < ms.length → j ≠ k →
    ∃ mj mk m, stepAt ms j = .next mj ∧ stepAt mj k = .next m ∧ stepAt ms k = .next mk ∧ stepAt mk j = .next m ∧
      mj[k]? = ms[k]? ∧ ∀ T, shareTable T ms → shareTable T m

/-- The work bounds of 43_frame_decode.md section 1 and 70_reset_and_hazards.md section 3, counted along `RUN` and `END` themselves: the counting `RUN` and `END` give
what `exec` gives, a `RUN` writes at most 11 bits, one for each step of the cursor (so at most 592 in a frame), an `END` with input reads 462 bits
and compares at most 8448 table words, at most 8192 if slot 0 holds a sync code, and a search compares the words up to its first match, all 256 if there is none. -/
def Obligations.WorkIsBounded : Prop :=
  ∀ s : State,
    (∀ t, exec (.run t) s = .next (runCounted t s).1 ∧
      (runCounted t s).1.wp = s.wp + (runCounted t s).2 ∧ (runCounted t s).2 ≤ 11 ∧
      (s.wp ≤ 592 → (runCounted t s).1.wp ≤ 592)) ∧
    exec .endCmd s = .next (endCounted s).1 ∧
    (s.haveRun = true → (endCounted s).2.bitReads = 462 ∧ (endCounted s).2.comparisons ≤ 8448 ∧
      (symbolOf s.cb.bit 0 = 0x0801#14 ∨ symbolOf s.cb.bit 0 = 0x0012#14 → (endCounted s).2.comparisons ≤ 8192)) ∧
    (s.haveRun = false → (endCounted s).2 = ⟨0, 0⟩) ∧
    ∀ c, (translateCounted s.table c).1 = Machine.translate s.table c ∧
      (∀ v, Machine.translate s.table c = some v → (translateCounted s.table c).2 = v.toNat + 1) ∧
      (Machine.translate s.table c = none → (translateCounted s.table c).2 = 256)

/-- The byte-at-a-time expander of 10_state.md section 4 builds the same buffer, and its hidden state is the function of `CB` and `WP` given there. -/
def Obligations.ByteAccumulatorBuildsTheSameBuffer : Prop :=
  ∀ (s : State) (ts : List Int), s.cb.wf = true → FilledBy s ts →
    (∀ k, k < 74 → flushed (gatherRuns ts) k = s.cb.readByte k) ∧
    (s.wp < 592 → accumulatorView s =
      ((gatherRuns ts).stored.length, 7 - (gatherRuns ts).count, (gatherRuns ts).acc))

/-- The model's own loading of a bare opcode-table word (log 6): the next step runs it, a command word alone, a slot-0 symbol as slot 0 of the frame that `END` decodes. -/
def Obligations.PlacedWordIsFetchedNext : Prop :=
  ∀ (s : State) (nbits w : Nat) (i : Instr), s.cb.wf = true → decodeTableWord nbits w = some i →
    ((∃ t, i = .run t) ∨ i = .endCmd → step (s.withFetchWord nbits w) = exec i s) ∧
    (i = .sync0 ∨ i = .sync1 ∨ (∃ c, i = .subcode c) →
      decodeSlot0 (stateSymbol (s.withFetchWord nbits w) 0) = i ∧
      step (s.withFetchWord nbits w) = .next (endFrame { s.withFetchWord nbits w with input := s.input }))
end

