-- ==== Sys2Proof/Laws/Memory.lean ====
section
/-! SUPPORT. The laws of the bitstream buffer: reading after writing, a write keeps the canonical form, equal contents are equal data. -/

namespace Sys2Proof.Machine

/-- The canonical form of a memory with a first cell, taken apart. -/
theorem Memory.wfFrom_cons (lo a : Nat) (b : Byte) (rest : Memory) :
    Memory.wfFrom lo ((a, b) :: rest) = true ↔
      lo ≤ a ∧ a < Config.bufBytes ∧ b ≠ unlistedByte ∧ Memory.wfFrom (a + 1) rest = true := by
  simp [Memory.wfFrom, and_assoc]

/-- Below its first address a canonical memory reads as unlisted. -/
theorem Memory.readByte_below {lo : Nat} {m : Memory} (h : Memory.wfFrom lo m = true) {k : Nat}
    (hk : k < lo) : m.readByte k = unlistedByte := by
  induction m generalizing lo with
  | nil => rfl
  | cons cell rest ih =>
    obtain ⟨a, b⟩ := cell
    obtain ⟨h1, -, -, h4⟩ := (Memory.wfFrom_cons ..).1 h
    have : a ≠ k := by omega
    simp only [Memory.readByte, this, if_false]
    exact ih h4 (by omega)

/-- A canonical memory reads as unlisted outside the 74 bytes. -/
theorem Memory.readByte_outside {lo : Nat} {m : Memory} (h : Memory.wfFrom lo m = true) {k : Nat}
    (hk : Config.bufBytes ≤ k) : m.readByte k = unlistedByte := by
  induction m generalizing lo with
  | nil => rfl
  | cons cell rest ih =>
    obtain ⟨a, b⟩ := cell
    obtain ⟨-, h2, -, h4⟩ := (Memory.wfFrom_cons ..).1 h
    have : a ≠ k := by omega
    simp only [Memory.readByte, this, if_false]
    exact ih h4

/-- The canonical form from a higher address is one from a lower address. -/
theorem Memory.wfFrom_mono {lo lo' : Nat} {m : Memory} (hl : lo ≤ lo')
    (h : Memory.wfFrom lo' m = true) : Memory.wfFrom lo m = true := by
  cases m with
  | nil => rfl
  | cons cell rest =>
    obtain ⟨a, b⟩ := cell
    obtain ⟨h1, h2, h3, h4⟩ := (Memory.wfFrom_cons ..).1 h
    exact (Memory.wfFrom_cons ..).2 ⟨by omega, h2, h3, h4⟩

/-- Putting a byte in front of the cells above it: what reads where. -/
theorem Memory.readByte_consCell {k : Nat} {m : Memory} (h : Memory.wfFrom (k + 1) m = true)
    (b : Byte) (j : Nat) :
    (Memory.consCell k b m).readByte j = if j = k then b else m.readByte j := by
  unfold Memory.consCell
  by_cases hb : b = unlistedByte
  · by_cases hj : j = k
    · simp [hb, hj, Memory.readByte_below h (Nat.lt_succ_self k)]
    · simp [hb, hj]
  · by_cases hj : j = k
    · simp [hb, hj, Memory.readByte]
    · simp [hb, hj, Memory.readByte, Ne.symm hj]

theorem Memory.wfFrom_consCell {lo k : Nat} {m : Memory} (h : Memory.wfFrom (k + 1) m = true)
    (hl : lo ≤ k) (hk : k < Config.bufBytes) (b : Byte) :
    Memory.wfFrom lo (Memory.consCell k b m) = true := by
  unfold Memory.consCell
  split
  · exact Memory.wfFrom_mono (by omega) h
  · exact (Memory.wfFrom_cons ..).2 ⟨hl, hk, ‹_›, h⟩

/-- Reading after a byte write. -/
theorem Memory.readByte_writeByte_from {lo : Nat} {m : Memory} (h : Memory.wfFrom lo m = true)
    (k : Nat) (b : Byte) (j : Nat) :
    (m.writeByte k b).readByte j = if j = k then b else m.readByte j := by
  induction m generalizing lo with
  | nil => exact Memory.readByte_consCell rfl b j
  | cons cell rest ih =>
    obtain ⟨a, x⟩ := cell
    obtain ⟨h1, h2, h3, h4⟩ := (Memory.wfFrom_cons ..).1 h
    by_cases hlt : k < a
    · rw [Memory.writeByte, if_pos hlt]
      exact Memory.readByte_consCell ((Memory.wfFrom_cons ..).2 ⟨by omega, h2, h3, h4⟩) b j
    · by_cases heq : k = a
      · subst heq
        rw [Memory.writeByte, if_neg hlt, if_pos rfl, Memory.readByte_consCell h4]
        by_cases hj : j = k
        · simp [hj]
        · simp [hj, Memory.readByte, Ne.symm hj]
      · rw [Memory.writeByte, if_neg hlt, if_neg heq]
        by_cases hj : a = j
        · subst hj
          simp [Memory.readByte, Ne.symm heq]
        · simp [Memory.readByte, hj, ih h4]

theorem Memory.wfFrom_writeByte {lo : Nat} {m : Memory} (h : Memory.wfFrom lo m = true)
    {k : Nat} (hl : lo ≤ k) (hk : k < Config.bufBytes) (b : Byte) :
    Memory.wfFrom lo (m.writeByte k b) = true := by
  induction m generalizing lo with
  | nil => exact Memory.wfFrom_consCell rfl hl hk b
  | cons cell rest ih =>
    obtain ⟨a, x⟩ := cell
    obtain ⟨h1, h2, h3, h4⟩ := (Memory.wfFrom_cons ..).1 h
    unfold Memory.writeByte
    split_ifs with hlt heq
    · exact Memory.wfFrom_consCell ((Memory.wfFrom_cons ..).2 ⟨by omega, h2, h3, h4⟩) hl hk b
    · subst heq
      exact Memory.wfFrom_consCell h4 hl hk b
    · exact (Memory.wfFrom_cons ..).2 ⟨h1, h2, h3, ih h4 (by omega)⟩

theorem Memory.readByte_writeByte {m : Memory} (h : m.wf = true) (k : Nat) (b : Byte) (j : Nat) :
    (m.writeByte k b).readByte j = if j = k then b else m.readByte j :=
  Memory.readByte_writeByte_from h k b j

/-- A byte write inside the buffer keeps the canonical form. -/
theorem Memory.writeByte_wf {m : Memory} (h : m.wf = true) {k : Nat} (hk : k < Config.bufBytes)
    (b : Byte) : (m.writeByte k b).wf = true :=
  Memory.wfFrom_writeByte h (Nat.zero_le k) hk b

/-- One bit of a byte after changing one bit of it. -/
theorem byteWithBit_getLsbD (x : Byte) {p q : Nat} (hp : p < 8) (hq : q < 8) (b : Bool) :
    (byteWithBit x p b).getLsbD q = if q = p then b else x.getLsbD q := by
  unfold byteWithBit
  cases b
  · by_cases h : q = p
    · subst h; simp [hq]
    · by_cases hl : q < p
      · simp [h, hl, hq]
      · have : q - p ≠ 0 := by omega
        simp [h, hl, hq, this]
  · by_cases h : q = p
    · subst h; simp [hq]
    · by_cases hl : q < p
      · simp [h, hl]
      · have : q - p ≠ 0 := by omega
        simp [h, hl, this]

/-- Reading a bit after a bit write: the buffer's read-after-write law. -/
theorem Memory.bit_setBit {m : Memory} (h : m.wf = true) (n : Nat) (b : Bool) (k : Nat) :
    (m.setBit n b).bit k = if k = n then b else m.bit k := by
  unfold Memory.setBit Memory.bit
  rw [Memory.readByte_writeByte h]
  by_cases hk : k / 8 = n / 8
  · rw [if_pos hk, byteWithBit_getLsbD _ (by omega) (by omega), hk]
    by_cases he : k = n
    · simp [he]
    · rw [if_neg he, if_neg (by omega)]
  · rw [if_neg hk, if_neg (by rintro rfl; exact hk rfl)]

/-- A bit write inside the buffer keeps the canonical form. -/
theorem Memory.setBit_wf {m : Memory} (h : m.wf = true) {n : Nat} (hn : n < Config.bufBits)
    (b : Bool) : (m.setBit n b).wf = true :=
  Memory.writeByte_wf h (by unfold Config.bufBits at hn; unfold Config.bufBytes; omega) _

@[simp] theorem Memory.bit_nil (n : Nat) : Memory.bit [] n = false := by
  simp [Memory.bit, Memory.readByte, unlistedByte]

@[simp] theorem Memory.wf_nil : Memory.wf [] = true := rfl

/-- A canonical buffer has no 1 bit at stream index 592 or above. -/
theorem Memory.bit_outside {m : Memory} (h : m.wf = true) {n : Nat} (hn : Config.bufBits ≤ n) :
    m.bit n = false := by
  unfold Memory.bit
  rw [Memory.readByte_outside h (by unfold Config.bufBits at hn; unfold Config.bufBytes; omega)]
  simp [unlistedByte]

/-- Two canonical memories that read alike from some address on are the same list. -/
theorem Memory.eq_of_readByte_from {lo : Nat} {m m' : Memory} (h : Memory.wfFrom lo m = true)
    (h' : Memory.wfFrom lo m' = true) (he : ∀ k, m.readByte k = m'.readByte k) : m = m' := by
  induction m generalizing lo m' with
  | nil =>
    cases m' with
    | nil => rfl
    | cons cell rest =>
      obtain ⟨a, b⟩ := cell
      obtain ⟨-, -, h3, -⟩ := (Memory.wfFrom_cons ..).1 h'
      have := he a
      simp [Memory.readByte] at this
      exact absurd this.symm h3
  | cons cell rest ih =>
    obtain ⟨a, b⟩ := cell
    obtain ⟨h1, h2, h3, h4⟩ := (Memory.wfFrom_cons ..).1 h
    cases m' with
    | nil =>
      have := he a
      simp [Memory.readByte] at this
      exact absurd this h3
    | cons cell' rest' =>
      obtain ⟨a', b'⟩ := cell'
      obtain ⟨h1', h2', h3', h4'⟩ := (Memory.wfFrom_cons ..).1 h'
      have haa : a = a' := by
        rcases Nat.lt_trichotomy a a' with hlt | heq | hgt
        · have := he a
          rw [Memory.readByte_below (lo := a')
            ((Memory.wfFrom_cons ..).2 ⟨le_refl _, h2', h3', h4'⟩) hlt] at this
          simp [Memory.readByte] at this
          exact absurd this h3
        · exact heq
        · have := he a'
          rw [Memory.readByte_below (lo := a)
            ((Memory.wfFrom_cons ..).2 ⟨le_refl _, h2, h3, h4⟩) hgt] at this
          simp [Memory.readByte] at this
          exact absurd this.symm h3'
      subst haa
      have hb : b = b' := by simpa [Memory.readByte] using he a
      subst hb
      congr 1
      refine ih h4 h4' fun k => ?_
      by_cases hk : a = k
      · subst hk
        rw [Memory.readByte_below h4 (Nat.lt_succ_self _),
          Memory.readByte_below h4' (Nat.lt_succ_self _)]
      · simpa [Memory.readByte, hk] using he k

/-- A byte is its bits. -/
theorem Memory.readByte_of_bits {m m' : Memory} (k : Nat)
    (he : ∀ j, j < 8 → m.bit (8 * k + j) = m'.bit (8 * k + j)) : m.readByte k = m'.readByte k := by
  apply BitVec.eq_of_getLsbD_eq
  intro i hi
  have := he (7 - i) (by omega)
  unfold Memory.bit at this
  rw [show (8 * k + (7 - i)) / 8 = k by omega, show 7 - (8 * k + (7 - i)) % 8 = i by omega] at this
  exact this

end Sys2Proof.Machine
end

