-- ==== Sys2Proof/Laws/State.lean ====
section
/-! SUPPORT. What each register update does to each field of the state: one lemma per field per update, by rfl, for simp. -/

namespace Sys2Proof.Machine

@[simp] theorem writeSlot0_cb (r : Slot0Result) (s : State) : (writeSlot0 r s).cb = s.cb := rfl
@[simp] theorem writeSlot0_wp (r : Slot0Result) (s : State) : (writeSlot0 r s).wp = s.wp := rfl
@[simp] theorem writeSlot0_haveRun (r : Slot0Result) (s : State) : (writeSlot0 r s).haveRun = s.haveRun := rfl
@[simp] theorem writeSlot0_truncW (r : Slot0Result) (s : State) : (writeSlot0 r s).truncW = s.truncW := rfl
@[simp] theorem writeSlot0_fv (r : Slot0Result) (s : State) : (writeSlot0 r s).fv = s.fv := rfl
@[simp] theorem writeSlot0_data (r : Slot0Result) (s : State) : (writeSlot0 r s).data = s.data := rfl
@[simp] theorem writeSlot0_err (r : Slot0Result) (s : State) : (writeSlot0 r s).err = s.err := rfl
@[simp] theorem writeSlot0_sub (r : Slot0Result) (s : State) : (writeSlot0 r s).sub = r.sub := rfl
@[simp] theorem writeSlot0_sync0 (r : Slot0Result) (s : State) : (writeSlot0 r s).sync0 = r.sync0 := rfl
@[simp] theorem writeSlot0_sync1 (r : Slot0Result) (s : State) : (writeSlot0 r s).sync1 = r.sync1 := rfl
@[simp] theorem writeSlot0_missing (r : Slot0Result) (s : State) : (writeSlot0 r s).missing = s.missing := rfl
@[simp] theorem writeSlot0_trunc (r : Slot0Result) (s : State) : (writeSlot0 r s).trunc = s.trunc := rfl
@[simp] theorem writeSlot0_subErr (r : Slot0Result) (s : State) : (writeSlot0 r s).subErr = r.subErr := rfl
@[simp] theorem writeSlot0_table (r : Slot0Result) (s : State) : (writeSlot0 r s).table = s.table := rfl
@[simp] theorem writeSlot0_event (r : Slot0Result) (s : State) : (writeSlot0 r s).event = s.event := rfl
@[simp] theorem writeSlot0_input (r : Slot0Result) (s : State) : (writeSlot0 r s).input = s.input := rfl

@[simp] theorem writeLane_cb (lane : Fin 32) (r : DataResult) (s : State) : (writeLane lane r s).cb = s.cb := rfl
@[simp] theorem writeLane_wp (lane : Fin 32) (r : DataResult) (s : State) : (writeLane lane r s).wp = s.wp := rfl
@[simp] theorem writeLane_haveRun (lane : Fin 32) (r : DataResult) (s : State) : (writeLane lane r s).haveRun = s.haveRun := rfl
@[simp] theorem writeLane_truncW (lane : Fin 32) (r : DataResult) (s : State) : (writeLane lane r s).truncW = s.truncW := rfl
@[simp] theorem writeLane_fv (lane : Fin 32) (r : DataResult) (s : State) : (writeLane lane r s).fv = s.fv := rfl
@[simp] theorem writeLane_data (lane : Fin 32) (r : DataResult) (s : State) : (writeLane lane r s).data = s.data.set lane.val r.value := rfl
@[simp] theorem writeLane_err (lane : Fin 32) (r : DataResult) (s : State) : (writeLane lane r s).err = s.err.set lane.val r.err := rfl
@[simp] theorem writeLane_sub (lane : Fin 32) (r : DataResult) (s : State) : (writeLane lane r s).sub = s.sub := rfl
@[simp] theorem writeLane_sync0 (lane : Fin 32) (r : DataResult) (s : State) : (writeLane lane r s).sync0 = s.sync0 := rfl
@[simp] theorem writeLane_sync1 (lane : Fin 32) (r : DataResult) (s : State) : (writeLane lane r s).sync1 = s.sync1 := rfl
@[simp] theorem writeLane_missing (lane : Fin 32) (r : DataResult) (s : State) : (writeLane lane r s).missing = s.missing := rfl
@[simp] theorem writeLane_trunc (lane : Fin 32) (r : DataResult) (s : State) : (writeLane lane r s).trunc = s.trunc := rfl
@[simp] theorem writeLane_subErr (lane : Fin 32) (r : DataResult) (s : State) : (writeLane lane r s).subErr = s.subErr := rfl
@[simp] theorem writeLane_table (lane : Fin 32) (r : DataResult) (s : State) : (writeLane lane r s).table = s.table := rfl
@[simp] theorem writeLane_event (lane : Fin 32) (r : DataResult) (s : State) : (writeLane lane r s).event = s.event := rfl
@[simp] theorem writeLane_input (lane : Fin 32) (r : DataResult) (s : State) : (writeLane lane r s).input = s.input := rfl

@[simp] theorem publish_cb (f : Frame) (st : SideFlags) (s : State) : (publish f st s).cb = s.cb := rfl
@[simp] theorem publish_wp (f : Frame) (st : SideFlags) (s : State) : (publish f st s).wp = s.wp := rfl
@[simp] theorem publish_haveRun (f : Frame) (st : SideFlags) (s : State) : (publish f st s).haveRun = s.haveRun := rfl
@[simp] theorem publish_truncW (f : Frame) (st : SideFlags) (s : State) : (publish f st s).truncW = s.truncW := rfl
@[simp] theorem publish_fv (f : Frame) (st : SideFlags) (s : State) : (publish f st s).fv = true := rfl
@[simp] theorem publish_data (f : Frame) (st : SideFlags) (s : State) : (publish f st s).data = f.data := rfl
@[simp] theorem publish_err (f : Frame) (st : SideFlags) (s : State) : (publish f st s).err = f.err := rfl
@[simp] theorem publish_sub (f : Frame) (st : SideFlags) (s : State) : (publish f st s).sub = f.sub := rfl
@[simp] theorem publish_sync0 (f : Frame) (st : SideFlags) (s : State) : (publish f st s).sync0 = f.sync0 := rfl
@[simp] theorem publish_sync1 (f : Frame) (st : SideFlags) (s : State) : (publish f st s).sync1 = f.sync1 := rfl
@[simp] theorem publish_missing (f : Frame) (st : SideFlags) (s : State) : (publish f st s).missing = false := rfl
@[simp] theorem publish_trunc (f : Frame) (st : SideFlags) (s : State) : (publish f st s).trunc = st.trunc := rfl
@[simp] theorem publish_subErr (f : Frame) (st : SideFlags) (s : State) : (publish f st s).subErr = st.subErr := rfl
@[simp] theorem publish_table (f : Frame) (st : SideFlags) (s : State) : (publish f st s).table = s.table := rfl
@[simp] theorem publish_event (f : Frame) (st : SideFlags) (s : State) : (publish f st s).event = some .frameValid := rfl
@[simp] theorem publish_input (f : Frame) (st : SideFlags) (s : State) : (publish f st s).input = s.input := rfl

@[simp] theorem clearFill_cb (s : State) : (clearFill s).cb = [] := rfl
@[simp] theorem clearFill_wp (s : State) : (clearFill s).wp = 0 := rfl
@[simp] theorem clearFill_haveRun (s : State) : (clearFill s).haveRun = false := rfl
@[simp] theorem clearFill_truncW (s : State) : (clearFill s).truncW = false := rfl
@[simp] theorem clearFill_fv (s : State) : (clearFill s).fv = s.fv := rfl
@[simp] theorem clearFill_data (s : State) : (clearFill s).data = s.data := rfl
@[simp] theorem clearFill_err (s : State) : (clearFill s).err = s.err := rfl
@[simp] theorem clearFill_sub (s : State) : (clearFill s).sub = s.sub := rfl
@[simp] theorem clearFill_sync0 (s : State) : (clearFill s).sync0 = s.sync0 := rfl
@[simp] theorem clearFill_sync1 (s : State) : (clearFill s).sync1 = s.sync1 := rfl
@[simp] theorem clearFill_missing (s : State) : (clearFill s).missing = s.missing := rfl
@[simp] theorem clearFill_trunc (s : State) : (clearFill s).trunc = s.trunc := rfl
@[simp] theorem clearFill_subErr (s : State) : (clearFill s).subErr = s.subErr := rfl
@[simp] theorem clearFill_table (s : State) : (clearFill s).table = s.table := rfl
@[simp] theorem clearFill_event (s : State) : (clearFill s).event = s.event := rfl
@[simp] theorem clearFill_input (s : State) : (clearFill s).input = s.input := rfl

@[simp] theorem endEmpty_cb (s : State) : (endEmpty s).cb = s.cb := rfl
@[simp] theorem endEmpty_wp (s : State) : (endEmpty s).wp = s.wp := rfl
@[simp] theorem endEmpty_haveRun (s : State) : (endEmpty s).haveRun = s.haveRun := rfl
@[simp] theorem endEmpty_truncW (s : State) : (endEmpty s).truncW = s.truncW := rfl
@[simp] theorem endEmpty_fv (s : State) : (endEmpty s).fv = s.fv := rfl
@[simp] theorem endEmpty_data (s : State) : (endEmpty s).data = s.data := rfl
@[simp] theorem endEmpty_err (s : State) : (endEmpty s).err = s.err := rfl
@[simp] theorem endEmpty_sub (s : State) : (endEmpty s).sub = s.sub := rfl
@[simp] theorem endEmpty_sync0 (s : State) : (endEmpty s).sync0 = s.sync0 := rfl
@[simp] theorem endEmpty_sync1 (s : State) : (endEmpty s).sync1 = s.sync1 := rfl
@[simp] theorem endEmpty_missing (s : State) : (endEmpty s).missing = true := rfl
@[simp] theorem endEmpty_trunc (s : State) : (endEmpty s).trunc = s.trunc := rfl
@[simp] theorem endEmpty_subErr (s : State) : (endEmpty s).subErr = s.subErr := rfl
@[simp] theorem endEmpty_table (s : State) : (endEmpty s).table = s.table := rfl
@[simp] theorem endEmpty_event (s : State) : (endEmpty s).event = some .missing := rfl
@[simp] theorem endEmpty_input (s : State) : (endEmpty s).input = s.input := rfl

@[simp] theorem takeItem_cb (rest : List PortItem) (s : State) : (takeItem rest s).cb = s.cb := rfl
@[simp] theorem takeItem_wp (rest : List PortItem) (s : State) : (takeItem rest s).wp = s.wp := rfl
@[simp] theorem takeItem_haveRun (rest : List PortItem) (s : State) : (takeItem rest s).haveRun = s.haveRun := rfl
@[simp] theorem takeItem_truncW (rest : List PortItem) (s : State) : (takeItem rest s).truncW = s.truncW := rfl
@[simp] theorem takeItem_fv (rest : List PortItem) (s : State) : (takeItem rest s).fv = s.fv := rfl
@[simp] theorem takeItem_data (rest : List PortItem) (s : State) : (takeItem rest s).data = s.data := rfl
@[simp] theorem takeItem_err (rest : List PortItem) (s : State) : (takeItem rest s).err = s.err := rfl
@[simp] theorem takeItem_sub (rest : List PortItem) (s : State) : (takeItem rest s).sub = s.sub := rfl
@[simp] theorem takeItem_sync0 (rest : List PortItem) (s : State) : (takeItem rest s).sync0 = s.sync0 := rfl
@[simp] theorem takeItem_sync1 (rest : List PortItem) (s : State) : (takeItem rest s).sync1 = s.sync1 := rfl
@[simp] theorem takeItem_missing (rest : List PortItem) (s : State) : (takeItem rest s).missing = s.missing := rfl
@[simp] theorem takeItem_trunc (rest : List PortItem) (s : State) : (takeItem rest s).trunc = s.trunc := rfl
@[simp] theorem takeItem_subErr (rest : List PortItem) (s : State) : (takeItem rest s).subErr = s.subErr := rfl
@[simp] theorem takeItem_table (rest : List PortItem) (s : State) : (takeItem rest s).table = s.table := rfl
@[simp] theorem takeItem_event (rest : List PortItem) (s : State) : (takeItem rest s).event = s.event := rfl
@[simp] theorem takeItem_input (rest : List PortItem) (s : State) : (takeItem rest s).input = rest := rfl

@[simp] theorem assertReset_cb (s : State) : (assertReset s).cb = State.reset.cb := rfl
@[simp] theorem assertReset_wp (s : State) : (assertReset s).wp = State.reset.wp := rfl
@[simp] theorem assertReset_haveRun (s : State) : (assertReset s).haveRun = State.reset.haveRun := rfl
@[simp] theorem assertReset_truncW (s : State) : (assertReset s).truncW = State.reset.truncW := rfl
@[simp] theorem assertReset_fv (s : State) : (assertReset s).fv = State.reset.fv := rfl
@[simp] theorem assertReset_data (s : State) : (assertReset s).data = State.reset.data := rfl
@[simp] theorem assertReset_err (s : State) : (assertReset s).err = State.reset.err := rfl
@[simp] theorem assertReset_sub (s : State) : (assertReset s).sub = State.reset.sub := rfl
@[simp] theorem assertReset_sync0 (s : State) : (assertReset s).sync0 = State.reset.sync0 := rfl
@[simp] theorem assertReset_sync1 (s : State) : (assertReset s).sync1 = State.reset.sync1 := rfl
@[simp] theorem assertReset_missing (s : State) : (assertReset s).missing = State.reset.missing := rfl
@[simp] theorem assertReset_trunc (s : State) : (assertReset s).trunc = State.reset.trunc := rfl
@[simp] theorem assertReset_subErr (s : State) : (assertReset s).subErr = State.reset.subErr := rfl
@[simp] theorem assertReset_table (s : State) : (assertReset s).table = s.table := rfl
@[simp] theorem assertReset_event (s : State) : (assertReset s).event = State.reset.event := rfl
@[simp] theorem assertReset_input (s : State) : (assertReset s).input = s.input := rfl

@[simp] theorem emitBit_haveRun (b : Bool) (s : State) : (emitBit b s).haveRun = s.haveRun := by
  unfold emitBit; split <;> rfl
@[simp] theorem emitBit_fv (b : Bool) (s : State) : (emitBit b s).fv = s.fv := by
  unfold emitBit; split <;> rfl
@[simp] theorem emitBit_data (b : Bool) (s : State) : (emitBit b s).data = s.data := by
  unfold emitBit; split <;> rfl
@[simp] theorem emitBit_err (b : Bool) (s : State) : (emitBit b s).err = s.err := by
  unfold emitBit; split <;> rfl
@[simp] theorem emitBit_sub (b : Bool) (s : State) : (emitBit b s).sub = s.sub := by
  unfold emitBit; split <;> rfl
@[simp] theorem emitBit_sync0 (b : Bool) (s : State) : (emitBit b s).sync0 = s.sync0 := by
  unfold emitBit; split <;> rfl
@[simp] theorem emitBit_sync1 (b : Bool) (s : State) : (emitBit b s).sync1 = s.sync1 := by
  unfold emitBit; split <;> rfl
@[simp] theorem emitBit_missing (b : Bool) (s : State) : (emitBit b s).missing = s.missing := by
  unfold emitBit; split <;> rfl
@[simp] theorem emitBit_trunc (b : Bool) (s : State) : (emitBit b s).trunc = s.trunc := by
  unfold emitBit; split <;> rfl
@[simp] theorem emitBit_subErr (b : Bool) (s : State) : (emitBit b s).subErr = s.subErr := by
  unfold emitBit; split <;> rfl
@[simp] theorem emitBit_table (b : Bool) (s : State) : (emitBit b s).table = s.table := by
  unfold emitBit; split <;> rfl
@[simp] theorem emitBit_event (b : Bool) (s : State) : (emitBit b s).event = s.event := by
  unfold emitBit; split <;> rfl
@[simp] theorem emitBit_input (b : Bool) (s : State) : (emitBit b s).input = s.input := by
  unfold emitBit; split <;> rfl

@[simp] theorem emitZeros_haveRun (n : Nat) (s : State) : (emitZeros n s).haveRun = s.haveRun := by
  induction n generalizing s with
  | zero => rfl
  | succ n ih => simp [emitZeros, ih]
@[simp] theorem emitZeros_fv (n : Nat) (s : State) : (emitZeros n s).fv = s.fv := by
  induction n generalizing s with
  | zero => rfl
  | succ n ih => simp [emitZeros, ih]
@[simp] theorem emitZeros_data (n : Nat) (s : State) : (emitZeros n s).data = s.data := by
  induction n generalizing s with
  | zero => rfl
  | succ n ih => simp [emitZeros, ih]
@[simp] theorem emitZeros_err (n : Nat) (s : State) : (emitZeros n s).err = s.err := by
  induction n generalizing s with
  | zero => rfl
  | succ n ih => simp [emitZeros, ih]
@[simp] theorem emitZeros_sub (n : Nat) (s : State) : (emitZeros n s).sub = s.sub := by
  induction n generalizing s with
  | zero => rfl
  | succ n ih => simp [emitZeros, ih]
@[simp] theorem emitZeros_sync0 (n : Nat) (s : State) : (emitZeros n s).sync0 = s.sync0 := by
  induction n generalizing s with
  | zero => rfl
  | succ n ih => simp [emitZeros, ih]
@[simp] theorem emitZeros_sync1 (n : Nat) (s : State) : (emitZeros n s).sync1 = s.sync1 := by
  induction n generalizing s with
  | zero => rfl
  | succ n ih => simp [emitZeros, ih]
@[simp] theorem emitZeros_missing (n : Nat) (s : State) : (emitZeros n s).missing = s.missing := by
  induction n generalizing s with
  | zero => rfl
  | succ n ih => simp [emitZeros, ih]
@[simp] theorem emitZeros_trunc (n : Nat) (s : State) : (emitZeros n s).trunc = s.trunc := by
  induction n generalizing s with
  | zero => rfl
  | succ n ih => simp [emitZeros, ih]
@[simp] theorem emitZeros_subErr (n : Nat) (s : State) : (emitZeros n s).subErr = s.subErr := by
  induction n generalizing s with
  | zero => rfl
  | succ n ih => simp [emitZeros, ih]
@[simp] theorem emitZeros_table (n : Nat) (s : State) : (emitZeros n s).table = s.table := by
  induction n generalizing s with
  | zero => rfl
  | succ n ih => simp [emitZeros, ih]
@[simp] theorem emitZeros_event (n : Nat) (s : State) : (emitZeros n s).event = s.event := by
  induction n generalizing s with
  | zero => rfl
  | succ n ih => simp [emitZeros, ih]
@[simp] theorem emitZeros_input (n : Nat) (s : State) : (emitZeros n s).input = s.input := by
  induction n generalizing s with
  | zero => rfl
  | succ n ih => simp [emitZeros, ih]

@[simp] theorem emitRun_haveRun (c : Nat) (s : State) : (emitRun c s).haveRun = s.haveRun := by simp [emitRun]
@[simp] theorem emitRun_fv (c : Nat) (s : State) : (emitRun c s).fv = s.fv := by simp [emitRun]
@[simp] theorem emitRun_data (c : Nat) (s : State) : (emitRun c s).data = s.data := by simp [emitRun]
@[simp] theorem emitRun_err (c : Nat) (s : State) : (emitRun c s).err = s.err := by simp [emitRun]
@[simp] theorem emitRun_sub (c : Nat) (s : State) : (emitRun c s).sub = s.sub := by simp [emitRun]
@[simp] theorem emitRun_sync0 (c : Nat) (s : State) : (emitRun c s).sync0 = s.sync0 := by simp [emitRun]
@[simp] theorem emitRun_sync1 (c : Nat) (s : State) : (emitRun c s).sync1 = s.sync1 := by simp [emitRun]
@[simp] theorem emitRun_missing (c : Nat) (s : State) : (emitRun c s).missing = s.missing := by simp [emitRun]
@[simp] theorem emitRun_trunc (c : Nat) (s : State) : (emitRun c s).trunc = s.trunc := by simp [emitRun]
@[simp] theorem emitRun_subErr (c : Nat) (s : State) : (emitRun c s).subErr = s.subErr := by simp [emitRun]
@[simp] theorem emitRun_table (c : Nat) (s : State) : (emitRun c s).table = s.table := by simp [emitRun]
@[simp] theorem emitRun_event (c : Nat) (s : State) : (emitRun c s).event = s.event := by simp [emitRun]
@[simp] theorem emitRun_input (c : Nat) (s : State) : (emitRun c s).input = s.input := by simp [emitRun]

@[simp] theorem reset_cb : State.reset.cb = [] := rfl
@[simp] theorem reset_wp : State.reset.wp = 0 := rfl
@[simp] theorem reset_haveRun : State.reset.haveRun = false := rfl
@[simp] theorem reset_truncW : State.reset.truncW = false := rfl
@[simp] theorem reset_fv : State.reset.fv = false := rfl
@[simp] theorem reset_missing : State.reset.missing = false := rfl
@[simp] theorem reset_event : State.reset.event = none := rfl
@[simp] theorem reset_input : State.reset.input = [] := rfl

end Sys2Proof.Machine
end

