-- ==== Sys2Proof/Laws/Emit.lean ====
section
/-! SUPPORT. What emitting bits at the cursor does: the cursor, the working truncation flag, the buffer's bits, the canonical form. -/

namespace Sys2Proof.Machine

theorem emitBit_wp (b : Bool) (s : State) :
    (emitBit b s).wp = s.wp + min 1 (Config.bufBits - s.wp) := by
  unfold emitBit
  split
  · show s.wp + 1 = _
    omega
  · show s.wp = _
    omega

theorem emitBit_truncW (b : Bool) (s : State) :
    (emitBit b s).truncW = (s.truncW || decide (Config.bufBits - s.wp < 1)) := by
  unfold emitBit
  split
  · rw [decide_eq_false (by omega), Bool.or_false]
  · rw [decide_eq_true (by omega), Bool.or_true]

theorem emitBit_wf (b : Bool) {s : State} (h : s.cb.wf = true) : (emitBit b s).cb.wf = true := by
  unfold emitBit
  split
  · exact Memory.setBit_wf h ‹_› b
  · exact h

theorem emitBit_bit (b : Bool) {s : State} (h : s.cb.wf = true) (k : Nat) :
    (emitBit b s).cb.bit k =
      if k = s.wp ∧ s.wp < Config.bufBits then b else s.cb.bit k := by
  unfold emitBit
  split
  · simpa [‹s.wp < Config.bufBits›] using Memory.bit_setBit h s.wp b k
  · simp [‹¬ s.wp < Config.bufBits›]

theorem emitZeros_wp (n : Nat) (s : State) :
    (emitZeros n s).wp = s.wp + min n (Config.bufBits - s.wp) := by
  induction n generalizing s with
  | zero => simp [emitZeros]
  | succ n ih =>
    rw [emitZeros, ih, emitBit_wp]
    omega

theorem emitZeros_truncW (n : Nat) (s : State) :
    (emitZeros n s).truncW = (s.truncW || decide (Config.bufBits - s.wp < n)) := by
  induction n generalizing s with
  | zero => simp [emitZeros]
  | succ n ih =>
    rw [emitZeros, ih, emitBit_truncW, emitBit_wp, Bool.or_assoc, ← Bool.decide_or]
    congr 1
    exact decide_eq_decide.2 (by omega)

theorem emitZeros_wf (n : Nat) {s : State} (h : s.cb.wf = true) :
    (emitZeros n s).cb.wf = true := by
  induction n generalizing s with
  | zero => exact h
  | succ n ih => exact ih (emitBit_wf false h)

theorem emitZeros_bit (n : Nat) {s : State} (h : s.cb.wf = true) (k : Nat) :
    (emitZeros n s).cb.bit k =
      if s.wp ≤ k ∧ k < s.wp + min n (Config.bufBits - s.wp) then false else s.cb.bit k := by
  induction n generalizing s with
  | zero =>
    rw [if_neg (by omega)]
    rfl
  | succ n ih =>
    rw [emitZeros, ih (emitBit_wf false h), emitBit_wp, emitBit_bit false h]
    split_ifs with h1 h2 h3 h3 <;> first | rfl | omega

/-- The cursor after a run of `c ≥ 1` bits. -/
theorem emitRun_wp {c : Nat} (hc : 1 ≤ c) (s : State) :
    (emitRun c s).wp = s.wp + min c (Config.bufBits - s.wp) := by
  rw [emitRun, emitZeros_wp, emitBit_wp]
  omega

/-- The working truncation flag after a run: set exactly when a bit was discarded, never cleared. -/
theorem emitRun_truncW {c : Nat} (hc : 1 ≤ c) (s : State) :
    (emitRun c s).truncW = (s.truncW || discardsBit s.wp c) := by
  rw [emitRun, emitZeros_truncW, emitBit_truncW, emitBit_wp, Bool.or_assoc, ← Bool.decide_or,
    discardsBit]
  congr 1
  exact decide_eq_decide.2 (by omega)

theorem emitRun_wf (c : Nat) {s : State} (h : s.cb.wf = true) : (emitRun c s).cb.wf = true :=
  emitZeros_wf _ (emitBit_wf true h)

/-- The buffer after a run: a 1 at the old cursor, zeros up to the new one, every other bit as before. -/
theorem emitRun_bit {c : Nat} (hc : 1 ≤ c) {s : State} (h : s.cb.wf = true) (k : Nat) :
    (emitRun c s).cb.bit k =
      if k = s.wp ∧ s.wp < Config.bufBits then true
      else if s.wp < k ∧ k < s.wp + min c (Config.bufBits - s.wp) then false
      else s.cb.bit k := by
  rw [emitRun, emitZeros_bit _ (emitBit_wf true h), emitBit_wp, emitBit_bit true h]
  split_ifs <;> first | rfl | omega

/-- A clamped run has 3 to 11 bits. -/
theorem runLength_bounds (t : Int) : 3 ≤ runLength t ∧ runLength t ≤ 11 := by
  unfold runLength clamp Config.tMin Config.tMax
  split_ifs <;> omega

@[simp] theorem runState_cb (t : Int) (s : State) : (runState t s).cb = (emitRun (runLength t) s).cb := rfl
@[simp] theorem runState_wp (t : Int) (s : State) : (runState t s).wp = (emitRun (runLength t) s).wp := rfl
@[simp] theorem runState_truncW (t : Int) (s : State) : (runState t s).truncW = (emitRun (runLength t) s).truncW := rfl
@[simp] theorem runState_haveRun (t : Int) (s : State) : (runState t s).haveRun = true := rfl
@[simp] theorem runState_event (t : Int) (s : State) : (runState t s).event = none := rfl
@[simp] theorem runState_fv (t : Int) (s : State) : (runState t s).fv = s.fv := emitRun_fv ..
@[simp] theorem runState_data (t : Int) (s : State) : (runState t s).data = s.data := emitRun_data ..
@[simp] theorem runState_err (t : Int) (s : State) : (runState t s).err = s.err := emitRun_err ..
@[simp] theorem runState_sub (t : Int) (s : State) : (runState t s).sub = s.sub := emitRun_sub ..
@[simp] theorem runState_sync0 (t : Int) (s : State) : (runState t s).sync0 = s.sync0 := emitRun_sync0 ..
@[simp] theorem runState_sync1 (t : Int) (s : State) : (runState t s).sync1 = s.sync1 := emitRun_sync1 ..
@[simp] theorem runState_missing (t : Int) (s : State) : (runState t s).missing = s.missing := emitRun_missing ..
@[simp] theorem runState_trunc (t : Int) (s : State) : (runState t s).trunc = s.trunc := emitRun_trunc ..
@[simp] theorem runState_subErr (t : Int) (s : State) : (runState t s).subErr = s.subErr := emitRun_subErr ..
@[simp] theorem runState_table (t : Int) (s : State) : (runState t s).table = s.table := emitRun_table ..
@[simp] theorem runState_input (t : Int) (s : State) : (runState t s).input = s.input := emitRun_input ..

/-- A `RUN` changes the fill state and the event, nothing else. -/
theorem runState_frame (t : Int) (s : State) :
    runState t s = { s with
      cb := (runState t s).cb
      wp := (runState t s).wp
      truncW := (runState t s).truncW
      haveRun := true
      event := none } := by
  have h : ∀ u : State, u.haveRun = true → u.event = none → u.fv = s.fv → u.data = s.data →
      u.err = s.err → u.sub = s.sub → u.sync0 = s.sync0 → u.sync1 = s.sync1 →
      u.missing = s.missing → u.trunc = s.trunc → u.subErr = s.subErr → u.table = s.table →
      u.input = s.input →
      u = { s with cb := u.cb, wp := u.wp, truncW := u.truncW, haveRun := true, event := none } := by
    intro u
    cases u
    intros
    simp_all
  exact h _ rfl rfl (runState_fv ..) (runState_data ..) (runState_err ..) (runState_sub ..)
    (runState_sync0 ..) (runState_sync1 ..) (runState_missing ..) (runState_trunc ..)
    (runState_subErr ..) (runState_table ..) (runState_input ..)

end Sys2Proof.Machine
end

