-- ==== Sys2Proof/Laws/Encoding.lean ====
section
/-! SUPPORT. What the decoder answers, in the shape proofs use. -/

namespace Sys2Proof

/-- A word of its format's width is decoded. -/
theorem decode_cmd {w : Nat} (h : w < 512) : decode .cmd w = .ok (decodeCommand (BitVec.ofNat 9 w)) :=
  if_pos h

theorem decode_sym0 {w : Nat} (h : w < 16384) : decode .sym0 w = .ok (decodeSlot0 (BitVec.ofNat 14 w)) :=
  if_pos h

theorem decode_symD {w : Nat} (lane : Fin 32) (h : w < 16384) :
    decode (.symD lane) w = .ok (decodeDataSlot lane (BitVec.ofNat 14 w)) :=
  if_pos h

/-- A wider number is turned away by name. -/
theorem decode_tooWide {f : Format} {w : Nat} (h : 2 ^ f.width ≤ w) :
    decode f w = .error (.wordTooWide f w) :=
  if_neg (Nat.not_lt.2 h)

/-- Every command word is a `RUN` with its low eight bits or an `END`. -/
theorem decodeCommand_cases (w : CmdWord) :
    decodeCommand w = .run (tval (w.setWidth 8)) ∨ decodeCommand w = .endCmd := by
  unfold decodeCommand
  split
  · exact .inr rfl
  · exact .inl rfl

@[simp] theorem decodeCommand_runWord (t : Byte) : decodeCommand (runWord t) = .run (tval t) := by
  have h : (runWord t).getLsbD 8 = false := by
    rw [runWord, BitVec.getLsbD_setWidth, BitVec.getLsbD_of_ge t 8 (le_refl 8), Bool.and_false]
  have h8 : (runWord t).setWidth 8 = t := by
    rw [runWord, BitVec.setWidth_setWidth_of_le t (by omega), BitVec.setWidth_eq]
  rw [decodeCommand, h, h8]
  rfl

@[simp] theorem decodeCommand_endWord : decodeCommand endWord = .endCmd := rfl

end Sys2Proof
end

