-- ==== Sys2Proof/Laws/Expand.lean ====
section
/-! SUPPORT. What the pure function `expand` stores, and that a `RUN` extends the expansion its state holds. -/

namespace Sys2Proof.Machine

@[simp] theorem runBits_length {c : Nat} (hc : 1 ≤ c) : (runBits c).length = c := by
  simp [runBits]
  omega

/-- Bit `j` of a run's code word: only the first bit is 1. -/
theorem runBits_getD {c : Nat} (j : Nat) : (runBits c).getD j false = decide (j = 0) := by
  cases j with
  | zero => rfl
  | succ j =>
    rw [runBits, List.getD_cons_succ]
    by_cases h : j < c - 1
    · rw [List.getD_eq_getElem _ _ (by simpa using h)]; simp
    · rw [List.getD_eq_default _ _ (by simpa using h)]; simp

theorem expandBits_cons (b : Bool) (bs : List Bool) (e : Expansion) :
    expandBits (b :: bs) e = expandBits bs (expandBit b e) := rfl

theorem expandBits_append (bs bs' : List Bool) (e : Expansion) :
    expandBits (bs ++ bs') e = expandBits bs' (expandBits bs e) := by
  simp [expandBits, List.foldl_append]

theorem expandBit_wp (b : Bool) (e : Expansion) :
    (expandBit b e).wp = e.wp + min 1 (Config.bufBits - e.wp) := by
  unfold expandBit
  split
  · show e.wp + 1 = _
    omega
  · show e.wp = _
    omega

theorem expandBit_trunc (b : Bool) (e : Expansion) :
    (expandBit b e).trunc = (e.trunc || decide (Config.bufBits - e.wp < 1)) := by
  unfold expandBit
  split
  · rw [decide_eq_false (by omega), Bool.or_false]
  · rw [decide_eq_true (by omega), Bool.or_true]

@[simp] theorem expandBit_length (b : Bool) (e : Expansion) :
    (expandBit b e).bits.length = e.bits.length := by
  unfold expandBit
  split <;> simp

theorem expandBit_getD (b : Bool) {e : Expansion} (hl : e.bits.length = Config.bufBits) (n : Nat) :
    (expandBit b e).bits.getD n false =
      if n = e.wp ∧ e.wp < Config.bufBits then b else e.bits.getD n false := by
  unfold expandBit
  split
  · rename_i h
    show (e.bits.set e.wp b).getD n false = _
    by_cases hn : n = e.wp
    · subst hn
      rw [if_pos ⟨rfl, h⟩, List.getD_eq_getElem _ _ (by simpa [hl] using h)]
      simp
    · rw [if_neg (by tauto)]
      simp [List.getD, Ne.symm hn]
  · rename_i h
    rw [if_neg (by tauto)]

@[simp] theorem expandBits_length (bs : List Bool) (e : Expansion) :
    (expandBits bs e).bits.length = e.bits.length := by
  induction bs generalizing e with
  | nil => rfl
  | cons b bs ih => rw [expandBits_cons, ih, expandBit_length]

theorem expandBits_wp (bs : List Bool) (e : Expansion) :
    (expandBits bs e).wp = e.wp + min bs.length (Config.bufBits - e.wp) := by
  induction bs generalizing e with
  | nil => simp [expandBits]
  | cons b bs ih =>
    rw [expandBits_cons, ih, expandBit_wp, List.length_cons]
    omega

theorem expandBits_trunc (bs : List Bool) (e : Expansion) :
    (expandBits bs e).trunc = (e.trunc || decide (Config.bufBits - e.wp < bs.length)) := by
  induction bs generalizing e with
  | nil => simp [expandBits]
  | cons b bs ih =>
    rw [expandBits_cons, ih, expandBit_trunc, expandBit_wp, Bool.or_assoc, ← Bool.decide_or,
      List.length_cons]
    congr 1
    exact decide_eq_decide.2 (by omega)

/-- Which bit the offered bits leave at stream index `n`. -/
theorem expandBits_getD (bs : List Bool) {e : Expansion} (hl : e.bits.length = Config.bufBits)
    (n : Nat) :
    (expandBits bs e).bits.getD n false =
      if e.wp ≤ n ∧ n < e.wp + min bs.length (Config.bufBits - e.wp) then bs.getD (n - e.wp) false
      else e.bits.getD n false := by
  induction bs generalizing e with
  | nil =>
    rw [if_neg (by simp)]
    rfl
  | cons b bs ih =>
    rw [expandBits_cons, ih (by simpa using hl), expandBit_wp, expandBit_getD b hl,
      List.length_cons]
    by_cases hin : e.wp ≤ n ∧ n < e.wp + min (bs.length + 1) (Config.bufBits - e.wp)
    · rw [if_pos hin]
      by_cases hn : n = e.wp
      · subst hn
        rw [if_neg (by omega), if_pos ⟨rfl, by omega⟩]
        simp
      · rw [if_pos (by omega)]
        have : n - e.wp = (n - (e.wp + min 1 (Config.bufBits - e.wp))) + 1 := by omega
        rw [this, List.getD_cons_succ]
    · rw [if_neg hin, if_neg (by omega), if_neg (by omega)]

theorem expand_append (ts : List Int) (t : Int) :
    expand (ts ++ [t]) = expandBits (runBits (runLength t)) (expand ts) := by
  simp [expand, List.foldl_append]

theorem runStream_append (ts us : List Int) : runStream (ts ++ us) = runStream ts ++ runStream us := by
  simp [runStream]

/-- `expand` offers the whole string at once. -/
theorem expand_eq_stream (ts : List Int) : expand ts = expandBits (runStream ts) emptyExpansion := by
  induction ts using List.reverseRecOn with
  | nil => rfl
  | append_singleton ts t ih =>
    rw [expand_append, ih, runStream_append, expandBits_append]
    simp [runStream]

@[simp] theorem emptyExpansion_length : emptyExpansion.bits.length = Config.bufBits := by
  simp [emptyExpansion]

@[simp] theorem expand_length (ts : List Int) : (expand ts).bits.length = Config.bufBits := by
  rw [expand_eq_stream, expandBits_length, emptyExpansion_length]

theorem emptyExpansion_getD (n : Nat) : emptyExpansion.bits.getD n false = false := by
  simp [emptyExpansion, List.getD, List.getElem?_replicate]
  split <;> rfl

/-- The cursor and the flag of an expansion, by the length of the string. -/
theorem expand_wp_stream (ts : List Int) :
    (expand ts).wp = min (runStream ts).length Config.bufBits := by
  rw [expand_eq_stream, expandBits_wp]
  simp [emptyExpansion]

theorem expand_trunc_stream (ts : List Int) :
    (expand ts).trunc = decide (Config.bufBits < (runStream ts).length) := by
  rw [expand_eq_stream, expandBits_trunc]
  simp [emptyExpansion]

/-- The stored bits are the string's, up to the ceiling. -/
theorem expand_getD_stream (ts : List Int) (n : Nat) :
    (expand ts).bits.getD n false = (decide (n < Config.bufBits) && (runStream ts).getD n false) := by
  rw [expand_eq_stream, expandBits_getD _ emptyExpansion_length, emptyExpansion_getD]
  have hz : emptyExpansion.wp = 0 := rfl
  rw [hz]
  by_cases hn : n < Config.bufBits
  · by_cases hl : n < (runStream ts).length
    · rw [if_pos (by omega)]
      simp [hn]
    · rw [if_neg (by omega), List.getD_eq_default _ _ (by omega)]
      simp
  · rw [if_neg (by omega)]
    simp [hn]

theorem runStream_length (ts : List Int) : (runStream ts).length = (ts.map runLength).sum := by
  simp only [runStream, List.length_flatMap]
  congr 1
  apply List.map_congr_left
  intro t _
  exact runBits_length (by have := runLength_bounds t; omega)

/-- The length of the string is `P_m`. -/
theorem runStream_length_eq (ts : List Int) : (runStream ts).length = runStart ts ts.length := by
  rw [runStream_length, runStart, List.take_length]

theorem runStart_cons_succ (t : Int) (ts : List Int) (k : Nat) :
    runStart (t :: ts) (k + 1) = runLength t + runStart ts k := by
  simp [runStart]

@[simp] theorem runStart_zero (ts : List Int) : runStart ts 0 = 0 := by simp [runStart]

/-- A 1 stands in the string exactly at the start of a run. -/
theorem runStream_getD_iff (ts : List Int) (n : Nat) :
    (runStream ts).getD n false = true ↔ ∃ k, k < ts.length ∧ n = runStart ts k := by
  induction ts generalizing n with
  | nil => simp [runStream]
  | cons t ts ih =>
    have hb := runLength_bounds t
    have hlen : (runBits (runLength t)).length = runLength t := runBits_length (by omega)
    have hcons : runStream (t :: ts) = runBits (runLength t) ++ runStream ts := by simp [runStream]
    rw [hcons]
    by_cases hn : n < runLength t
    · rw [List.getD_append _ _ _ _ (by omega), runBits_getD, decide_eq_true_iff]
      constructor
      · rintro rfl
        exact ⟨0, by simp, by simp⟩
      · rintro ⟨k, hk, hnk⟩
        cases k with
        | zero => simpa using hnk
        | succ k => rw [runStart_cons_succ] at hnk; omega
    · rw [List.getD_append_right _ _ _ _ (by omega), hlen, ih]
      constructor
      · rintro ⟨k, hk, hnk⟩
        exact ⟨k + 1, by simpa using hk, by rw [runStart_cons_succ]; omega⟩
      · rintro ⟨k, hk, hnk⟩
        cases k with
        | zero => simp at hnk; omega
        | succ k =>
          rw [runStart_cons_succ] at hnk
          exact ⟨k, by simpa using hk, by omega⟩

/-- A `RUN` extends the expansion that the fill state holds. -/
theorem filledBy_runState {s : State} {ts : List Int} (hw : s.cb.wf = true) (h : FilledBy s ts)
    (t : Int) : FilledBy (runState t s) (ts ++ [t]) := by
  obtain ⟨-, h2, h3, h4⟩ := h
  have hb := runLength_bounds t
  have hlen : (runBits (runLength t)).length = runLength t := runBits_length (by omega)
  refine ⟨by simp, ?_, ?_, fun n => ?_⟩
  · rw [runState_wp, emitRun_wp (by omega), expand_append, expandBits_wp, hlen, h2]
  · rw [runState_truncW, emitRun_truncW (by omega), expand_append, expandBits_trunc, hlen, h2, h3, discardsBit]
    congr 1
    exact decide_eq_decide.2 (by omega)
  · rw [runState_cb, emitRun_bit (by omega) hw, expand_append, expandBits_getD _ (expand_length ts), hlen,
      ← h2, h4 n, runBits_getD]
    split_ifs with h5 h6 h7 h8 h9
    · rw [decide_eq_true (by omega)]
    · omega
    · rw [decide_eq_false (by omega)]
    · omega
    · omega
    · rfl

end Sys2Proof.Machine
end

