-- ==== Sys2Proof/Laws/Extract.lean ====
section
/-! SUPPORT. What bit-field extraction returns: its range, its bits, its locality, concatenation. -/

namespace Sys2Proof.Machine

@[simp] theorem field_zero (bit : Nat → Bool) (off : Nat) : field bit off 0 = 0 := rfl

theorem field_succ (bit : Nat → Bool) (off w : Nat) :
    field bit off (w + 1) = 2 * field bit off w + bitValue (bit (off + w)) := rfl

theorem bitValue_le (b : Bool) : bitValue b ≤ 1 := by cases b <;> decide

theorem field_lt (bit : Nat → Bool) (off w : Nat) : field bit off w < 2 ^ w := by
  induction w with
  | zero => simp
  | succ w ih =>
    rw [field_succ, pow_succ]
    have := bitValue_le (bit (off + w))
    omega

/-- The field depends only on its own bits. -/
theorem field_congr {bit bit' : Nat → Bool} {off w : Nat}
    (h : ∀ j, j < w → bit (off + j) = bit' (off + j)) : field bit off w = field bit' off w := by
  induction w with
  | zero => rfl
  | succ w ih =>
    rw [field_succ, field_succ, ih fun j hj => h j (by omega), h w (by omega)]

/-- A field is two narrower fields side by side. -/
theorem field_add (bit : Nat → Bool) (off a b : Nat) :
    field bit off (a + b) = field bit off a * 2 ^ b + field bit (off + a) b := by
  induction b with
  | zero => simp
  | succ b ih =>
    rw [← Nat.add_assoc, field_succ, field_succ, ih, pow_succ, Nat.add_assoc off a b]
    ring

theorem testBit_two_mul_add_bit (x : Nat) (b : Bool) (i : Nat) :
    (2 * x + bitValue b).testBit (i + 1) = x.testBit i := by
  rw [Nat.testBit_succ]
  congr 1
  have := bitValue_le b
  omega

/-- Bit `i` of a field, least significant 0, is the bit at stream index `off + w - 1 - i`. -/
theorem field_testBit (bit : Nat → Bool) (off w i : Nat) (hi : i < w) :
    (field bit off w).testBit i = bit (off + (w - 1 - i)) := by
  induction w generalizing i with
  | zero => omega
  | succ w ih =>
    rw [field_succ]
    cases i with
    | zero =>
      rw [show off + (w + 1 - 1 - 0) = off + w by omega, Nat.testBit_zero]
      cases bit (off + w) <;> simp [bitValue]
    | succ i =>
      rw [testBit_two_mul_add_bit, ih i (by omega)]
      congr 2
      omega

theorem symbolOf_toNat (bit : Nat → Bool) (i : Nat) :
    (symbolOf bit i).toNat = field bit (Config.firstOff + Config.stride * i) Config.symBits := by
  rw [symbolOf, BitVec.toNat_ofNat]
  exact Nat.mod_eq_of_lt (field_lt _ _ _)

/-- The bits of a channel symbol, most significant first. -/
theorem symbolOf_getLsbD (bit : Nat → Bool) (i j : Nat) (hj : j < 14) :
    (symbolOf bit i).getLsbD (13 - j) = bit (27 + 17 * i + j) := by
  rw [BitVec.getLsbD, symbolOf_toNat, field_testBit _ _ _ _ (by unfold Config.symBits; omega)]
  congr 1
  unfold Config.symBits Config.firstOff Config.stride
  omega

/-- A symbol depends only on its own 14 bits. -/
theorem symbolOf_congr {bit bit' : Nat → Bool} {i : Nat}
    (h : ∀ j, j < 14 → bit (27 + 17 * i + j) = bit' (27 + 17 * i + j)) :
    symbolOf bit i = symbolOf bit' i := by
  have hf : field bit (Config.firstOff + Config.stride * i) Config.symBits =
      field bit' (Config.firstOff + Config.stride * i) Config.symBits :=
    field_congr fun j hj => h j hj
  unfold symbolOf
  rw [hf]

/-- A read of the list of bits is a read of the buffer. -/
theorem Memory.bits_getD (m : Memory) {n : Nat} (hn : n < Config.bufBits) :
    m.bits.getD n false = m.bit n := by
  rw [List.getD_eq_getElem _ _ (by simpa [Memory.bits] using hn)]
  simp [Memory.bits]

/-- `MemRead` is `extract` on `CB`. -/
theorem memRead_eq_extract (m : Memory) (off w : Nat) : memRead m off w = extract m.bits off w := by
  unfold memRead extract
  have hl : m.bits.length = Config.bufBits := by simp [Memory.bits]
  rw [hl]
  split
  · rename_i h
    have hf : field m.bit off w = field (fun n => m.bits.getD n false) off w :=
      field_congr fun j hj =>
        (Memory.bits_getD m (lt_of_lt_of_le (Nat.add_lt_add_left hj off) h.2)).symm
    rw [hf]
  · rfl

end Sys2Proof.Machine
end

