-- ==== Sys2Proof/Laws/Translate.lean ====
section
/-! SUPPORT. What the table search returns: the least source value with the code, or none. -/

namespace Sys2Proof.Machine

/-- The search from `v0` on finds `v0 + k` for the least position `k` that holds the code. -/
theorem searchFrom_eq_some {l : List Sym} {c : Sym} {v0 : Nat} {v : Byte} :
    searchFrom l c v0 = some v ↔
      ∃ k, ∃ h : k < l.length, l[k] = c ∧ v = BitVec.ofNat 8 (v0 + k) ∧
        ∀ j, (hj : j < k) → l[j]'(by omega) ≠ c := by
  induction l generalizing v0 with
  | nil => simp [searchFrom]
  | cons x rest ih =>
    by_cases hx : x = c
    · simp only [searchFrom, hx, if_true, Option.some.injEq]
      constructor
      · rintro rfl
        exact ⟨0, by simp, by simp, by simp, fun j hj => by omega⟩
      · rintro ⟨k, hk, -, hv, hj⟩
        cases k with
        | zero => simpa using hv.symm
        | succ k => exact absurd (by simp) (hj 0 (by omega))
    · simp only [searchFrom, hx, if_false, ih]
      constructor
      · rintro ⟨k, hk, hc, hv, hj⟩
        refine ⟨k + 1, by simpa using hk, by simpa using hc, by rw [hv]; congr 1; omega, ?_⟩
        intro j hjk
        cases j with
        | zero => simpa using hx
        | succ j => simpa using hj j (by omega)
      · rintro ⟨k, hk, hc, hv, hj⟩
        cases k with
        | zero => exact absurd (by simpa using hc) hx
        | succ k =>
          refine ⟨k, by simpa using hk, by simpa using hc, by rw [hv]; congr 1; omega, ?_⟩
          intro j hjk
          simpa using hj (j + 1) (by omega)

theorem searchFrom_eq_none {l : List Sym} {c : Sym} {v0 : Nat} :
    searchFrom l c v0 = none ↔ ∀ x ∈ l, x ≠ c := by
  induction l generalizing v0 with
  | nil => simp [searchFrom]
  | cons x rest ih =>
    by_cases hx : x = c
    · simp [searchFrom, hx]
    · simp [searchFrom, hx, ih]

theorem tableRead_ofNat (T : Vector Sym 256) {k : Nat} (hk : k < 256) :
    tableRead T (BitVec.ofNat 8 k) = T.toList[k]'(by simpa using hk) := by
  unfold tableRead
  have : (BitVec.ofNat 8 k).toNat = k := by simpa using hk
  simp [this]

theorem byte_eq_ofNat_toNat (v : Byte) : v = BitVec.ofNat 8 v.toNat := by simp

/-- Every word of the table is read at some source value. -/
theorem mem_table_iff (T : Vector Sym 256) (c : Sym) :
    c ∈ T.toList ↔ ∃ v : Byte, tableRead T v = c := by
  constructor
  · intro h
    obtain ⟨k, hk, rfl⟩ := List.getElem_of_mem h
    exact ⟨BitVec.ofNat 8 k, tableRead_ofNat T (by simpa using hk)⟩
  · rintro ⟨v, rfl⟩
    simp [tableRead]

end Sys2Proof.Machine
end

