-- ==== Sys2Proof/Laws/Flags.lean ====
section
/-! SUPPORT. The flag computations as propositions, and the cases of the two slot decodes. -/

namespace Sys2Proof.Machine

theorem outOfRange_iff (t : Int) : outOfRange t = true ↔ t < 3 ∨ 11 < t := by
  rw [outOfRange, Bool.or_eq_true]
  exact or_congr decide_eq_true_iff decide_eq_true_iff

theorem discardsBit_iff {wp c : Nat} (hc : 1 ≤ c) : discardsBit wp c = true ↔ 592 < wp + c := by
  rw [discardsBit, decide_eq_true_iff]
  show min c (592 - wp) < c ↔ _
  omega

@[simp] theorem mem_raiseIf (b : Bool) (c d : Condition) : d ∈ raiseIf b c ↔ b = true ∧ d = c := by
  cases b <;> simp [raiseIf]

@[simp] theorem subdec_s0 (T : Vector Sym 256) : subdec T Config.s0 = sync0Result := if_pos rfl

@[simp] theorem subdec_s1 (T : Vector Sym 256) : subdec T Config.s1 = sync1Result := rfl

theorem subdec_found {T : Vector Sym 256} {c : Sym} {v : Byte} (h0 : c ≠ Config.s0)
    (h1 : c ≠ Config.s1) (h : translate T c = some v) : subdec T c = ⟨false, false, v, false⟩ := by
  rw [subdec, if_neg h0, if_neg h1, h]

theorem subdec_notFound {T : Vector Sym 256} {c : Sym} (h0 : c ≠ Config.s0) (h1 : c ≠ Config.s1)
    (h : translate T c = none) : subdec T c = ⟨false, false, Config.subFail, true⟩ := by
  rw [subdec, if_neg h0, if_neg h1, h]

theorem datadec_found {T : Vector Sym 256} {c : Sym} {v : Byte} (h : translate T c = some v) :
    datadec T c = ⟨v, false⟩ := by
  rw [datadec, h]

theorem datadec_notFound {T : Vector Sym 256} {c : Sym} (h : translate T c = none) :
    datadec T c = ⟨0#8, true⟩ := by
  rw [datadec, h]

/-- Everything the decode of slot 0 can answer. -/
theorem subdec_cases (T : Vector Sym 256) (c : Sym) :
    (c = Config.s0 ∧ subdec T c = sync0Result) ∨ (c = Config.s1 ∧ subdec T c = sync1Result) ∨
    (c ≠ Config.s0 ∧ c ≠ Config.s1 ∧
      ((∃ v, translate T c = some v ∧ subdec T c = ⟨false, false, v, false⟩) ∨
        (translate T c = none ∧ subdec T c = ⟨false, false, Config.subFail, true⟩))) := by
  by_cases h0 : c = Config.s0
  · exact .inl ⟨h0, by rw [h0, subdec_s0]⟩
  by_cases h1 : c = Config.s1
  · exact .inr (.inl ⟨h1, by rw [h1, subdec_s1]⟩)
  refine .inr (.inr ⟨h0, h1, ?_⟩)
  cases h : translate T c with
  | none => exact .inr ⟨rfl, subdec_notFound h0 h1 h⟩
  | some v => exact .inl ⟨v, rfl, subdec_found h0 h1 h⟩

/-- The failure flag of slot 0 goes with a failed translation of no sync code. -/
theorem subdec_subErr_iff (T : Vector Sym 256) (c : Sym) :
    (subdec T c).subErr = true ↔ c ≠ Config.s0 ∧ c ≠ Config.s1 ∧ translate T c = none := by
  rcases subdec_cases T c with ⟨h, hs⟩ | ⟨h, hs⟩ | ⟨h0, h1, ⟨v, hv, hs⟩ | ⟨hn, hs⟩⟩
  · simp [h, sync0Result]
  · simp [h, sync1Result]
  · simp [hs, hv]
  · simp [hs, hn, h0, h1]

/-- The error flag of a data slot goes with a failed translation. -/
theorem datadec_err_iff (T : Vector Sym 256) (c : Sym) :
    (datadec T c).err = true ↔ translate T c = none := by
  cases h : translate T c with
  | none => simp [datadec_notFound h]
  | some v => simp [datadec_found h]

end Sys2Proof.Machine
end

