-- ==== Sys2Proof/Laws/Step.lean ====
section
/-! SUPPORT. What one step can do, said once; later proofs take a step apart with `step_cases` and do not unfold it. -/

namespace Sys2Proof.Machine

theorem execEnd_frame {s : State} (h : s.haveRun = true) : execEnd s = .next (endFrame s) := by
  simp [execEnd, h]

theorem execEnd_empty {s : State} (h : s.haveRun = false) : execEnd s = .next (endEmpty s) := by
  simp [execEnd, h]

/-- The decoded slot-0 instruction writes what `subdec` answers. -/
theorem exec_decodeSlot0 (c : Sym) (s : State) :
    exec (decodeSlot0 c) s = .next (writeSlot0 (subdec s.table c) s) := by
  unfold decodeSlot0
  split_ifs with h h'
  · rw [h, subdec_s0]
    rfl
  · rw [h', subdec_s1]
    rfl
  · rfl

/-- The three cases of the input port. -/
theorem step_idle {s : State} (h : s.input = []) : step s = .next { s with event := none } := by
  unfold step
  rw [h]

theorem step_rst {s : State} {rest : List PortItem} (h : s.input = .rst :: rest) :
    step s = .next (assertReset (takeItem rest s)) := by
  unfold step
  rw [h]

theorem step_command {s : State} {w : CmdWord} {rest : List PortItem}
    (h : s.input = .command w :: rest) :
    step s = exec (decodeCommand w) (takeItem rest s) := by
  unfold step
  rw [h]

/-- Everything a step can do: hold, reset, run, end with a frame, end without input. -/
theorem step_cases {s u : State} (h : step s = .next u) :
    (s.input = [] ∧ u = { s with event := none }) ∨
    (∃ rest, s.input = .rst :: rest ∧ u = assertReset (takeItem rest s)) ∨
    (∃ w rest t, s.input = .command w :: rest ∧ decodeCommand w = .run t ∧
      u = runState t (takeItem rest s)) ∨
    (∃ w rest, s.input = .command w :: rest ∧ decodeCommand w = .endCmd ∧ s.haveRun = true ∧
      u = endFrame (takeItem rest s)) ∨
    (∃ w rest, s.input = .command w :: rest ∧ decodeCommand w = .endCmd ∧ s.haveRun = false ∧
      u = endEmpty (takeItem rest s)) := by
  have hcases : s.input = [] ∨ ∃ item rest, s.input = item :: rest := by
    cases s.input <;> simp
  rcases hcases with hi | ⟨item, rest, hi⟩
  · rw [step_idle hi] at h
    cases h
    exact .inl ⟨hi, rfl⟩
  · cases item with
    | rst =>
      rw [step_rst hi] at h
      cases h
      exact .inr (.inl ⟨rest, hi, rfl⟩)
    | command w =>
      rw [step_command hi] at h
      rcases decodeCommand_cases w with hd | hd
      · rw [hd] at h
        cases h
        exact .inr (.inr (.inl ⟨w, rest, _, hi, hd, rfl⟩))
      · rw [hd] at h
        by_cases hh : s.haveRun = true
        · have he : exec .endCmd (takeItem rest s) = .next (endFrame (takeItem rest s)) :=
            execEnd_frame hh
          rw [he] at h
          cases h
          exact .inr (.inr (.inr (.inl ⟨w, rest, hi, hd, hh, rfl⟩)))
        · have hh' : s.haveRun = false := by simpa using hh
          have he : exec .endCmd (takeItem rest s) = .next (endEmpty (takeItem rest s)) :=
            execEnd_empty hh'
          rw [he] at h
          cases h
          exact .inr (.inr (.inr (.inr ⟨w, rest, hi, hd, hh', rfl⟩)))

/-- What a producing `END` leaves, field by field. -/
theorem endFrame_eq (s : State) :
    endFrame s = { s with
      cb := [], wp := 0, haveRun := false, truncW := false, fv := true
      data := (frameOf s.table (stateSymbol s)).data
      err := (frameOf s.table (stateSymbol s)).err
      sub := (frameOf s.table (stateSymbol s)).sub
      sync0 := (frameOf s.table (stateSymbol s)).sync0
      sync1 := (frameOf s.table (stateSymbol s)).sync1
      missing := false
      trunc := s.truncW
      subErr := (subdec s.table (stateSymbol s 0)).subErr
      event := some .frameValid } := rfl

/-- One lane of a frame is the decode of its symbol. -/
theorem frameOf_data (T : Vector Sym 256) (sym : Nat → Sym) (i : Fin 32) :
    (frameOf T sym).data[i] = (datadec T (sym (i.val + 1))).value := by
  simp [frameOf]

theorem frameOf_err (T : Vector Sym 256) (sym : Nat → Sym) (i : Fin 32) :
    (frameOf T sym).err[i] = (datadec T (sym (i.val + 1))).err := by
  simp [frameOf]

end Sys2Proof.Machine
end

