-- ==== Sys2Proof/Laws/Invariants.lean ====
section
/-! SUPPORT. The invariants of a cleared fill state and of a freshly published frame. -/

namespace Sys2Proof.Machine

/-- A cleared fill state has its invariant. -/
theorem fillInv_of_cleared {s : State} (h1 : s.cb = []) (h2 : s.wp = 0) (h3 : s.truncW = false) : FillInv s where
  cursor_le := by rw [h2]; exact Nat.zero_le _
  unwritten_zero := by intro n _; rw [h1]; exact Memory.bit_nil n
  empty_cursor := fun _ => h2
  empty_trunc := fun _ => h3
  empty_buffer := by intro _ n; rw [h1]; exact Memory.bit_nil n
  trunc_full := by intro h; rw [h3] at h; cases h

theorem haveInv_of_cleared {s : State} (h1 : s.wp = 0) (h2 : s.haveRun = false) : HaveInv s where
  have_iff := by simp [h1, h2]
  first_bit := by simp [h2]

/-- A fill state without a run is the expansion of the empty sequence. -/
theorem filledBy_nil_of_empty {s : State} (h : FillInv s) (hh : s.haveRun = false) : FilledBy s [] := by
  refine ⟨by simp [hh], h.empty_cursor hh, h.empty_trunc hh, fun n => ?_⟩
  rw [h.empty_buffer hh]
  exact (emptyExpansion_getD n).symm

/-- A published frame has the held frame's invariants. -/
theorem heldFrameInv_endFrame (s : State) : HeldFrameInv (endFrame s) := by
  rw [endFrame_eq]
  rcases subdec_cases s.table (stateSymbol s 0) with ⟨h, hs⟩ | ⟨h, hs⟩ | ⟨-, -, ⟨v, hv, hs⟩ | ⟨hn, hs⟩⟩
  all_goals
    refine ⟨?_, ?_, ?_, ?_⟩
    · simp [frameOf, hs, sync0Result, sync1Result]
    · simp [frameOf, hs, sync0Result, sync1Result]
    · intro _ i hi
      have hi : (datadec s.table (stateSymbol s (i.val + 1))).err = true := by simpa [frameOf] using hi
      rw [datadec_err_iff] at hi
      simp [frameOf, datadec_notFound hi]
    · simp [frameOf, hs, sync0Result, sync1Result]

end Sys2Proof.Machine
end

