-- ==== Sys2Proof/Laws/PerInstr.lean ====
section
/-! SUPPORT. A family of facts about every instruction as syntax: the encoded word of a well-formed instruction fits its format and is taken by its own row of the opcode table (30_encoding.md R84). -/

namespace Sys2Proof.Laws.MatchesRow

/-- The encoded word of `i` has its format's width and matches the row of the opcode table that bears its mnemonic. -/
def Statement (i : Instr) : Prop :=
  i.wellFormed = true →
    (encode i).2 < 2 ^ (encode i).1.width ∧
      ∃ r ∈ opcodeRows, r.mnemonic = i.mnemonic ∧ r.format = (encode i).1.name ∧
        r.takes (encode i).2 = true

theorem run (t : Int) : Statement (.run t) := by
  intro h
  simp only [Instr.wellFormed, runOperandFits, Bool.and_eq_true, decide_eq_true_eq] at h
  obtain ⟨n, rfl⟩ : ∃ n : Nat, t = n := ⟨t.toNat, by omega⟩
  have hn : n < 256 := by omega
  refine ⟨by simp only [encode, Format.width, Int.toNat_natCast]; omega, ⟨"RUN", .CMD, 0x000, 0x100, 0⟩,
    by simp [opcodeRows], rfl, rfl, ?_⟩
  refine decide_eq_true ?_
  simp only [encode, Int.toNat_natCast]
  apply Nat.eq_of_testBit_eq
  intro j
  rw [Nat.testBit_and, show (0x100 : Nat) = 2 ^ 8 from rfl, Nat.testBit_two_pow]
  by_cases hj : 8 = j
  · subst hj
    simp [Nat.testBit_lt_two_pow (show n < 2 ^ 8 by omega)]
  · simp [hj]

theorem endCmd : Statement .endCmd := by
  intro _
  exact ⟨by decide, ⟨"END", .CMD, 0x100, 0x100, 0⟩, by simp [opcodeRows], rfl, rfl, by decide⟩

theorem sync0 : Statement .sync0 := by
  intro _
  exact ⟨by decide, ⟨"SYNC0", .SYM0, 0x0801, 0x3FFF, 1⟩, by simp [opcodeRows], rfl, rfl, by decide⟩

theorem sync1 : Statement .sync1 := by
  intro _
  exact ⟨by decide, ⟨"SYNC1", .SYM0, 0x0012, 0x3FFF, 2⟩, by simp [opcodeRows], rfl, rfl, by decide⟩

theorem subcode (c : Sym) : Statement (.subcode c) := by
  intro _
  exact ⟨c.isLt, ⟨"SUBCODE", .SYM0, 0x0000, 0x0000, 3⟩, by simp [opcodeRows], rfl, rfl,
    by simp [OpRow.takes]⟩

theorem data (lane : Fin 32) (c : Sym) : Statement (.data lane c) := by
  intro _
  exact ⟨c.isLt, ⟨"DATA", .SYMD, 0x0000, 0x0000, 1⟩, by simp [opcodeRows], rfl, rfl,
    by simp [OpRow.takes]⟩

end Sys2Proof.Laws.MatchesRow
end

