-- ==== Sys2Proof/Laws/Ports.lean ====
section
/-! SUPPORT. One bit of a packed output port, of a placed word, and one byte of the byte accumulator. -/

namespace Sys2Proof.Machine

/-- Bit `i` of a packed port is the bit it was packed from. -/
theorem packBits_getLsbD (f : Nat → Bool) (n i : Nat) :
    (packBits f n).getLsbD i = (decide (i < n) && f i) := by
  induction n with
  | zero => simp [packBits]
  | succ n ih =>
    rw [packBits, BitVec.getLsbD_cons, ih]
    by_cases h : i = n
    · simp [h]
    · simp only [h, if_false]
      congr 1
      exact decide_eq_decide.2 (by omega)

/-- A placed field keeps the canonical form, shows its bits most significant first, and changes no other bit. -/
theorem placeField_bit {m : Memory} (h : m.wf = true) (off w v : Nat) (hb : off + w ≤ 592) :
    (placeField m off w v).wf = true ∧ ∀ n, (placeField m off w v).bit n =
      if off ≤ n ∧ n < off + w then v.testBit (off + w - 1 - n) else m.bit n := by
  induction w generalizing m off with
  | zero => exact ⟨h, fun n => by rw [if_neg (by omega)]; rfl⟩
  | succ w ih =>
    have hB : Config.bufBits = 592 := rfl
    obtain ⟨i1, i2⟩ := ih (Memory.setBit_wf h (show off < Config.bufBits by omega) (v.testBit w))
      (off + 1) (by omega)
    refine ⟨i1, fun n => ?_⟩
    rw [placeField, i2, Memory.bit_setBit h]
    split_ifs with c1 c2 c3 c4 <;> first | omega | (congr 1; omega) | rfl

/-- Reading a list of bytes with one more at its end, 0x00 beyond. -/
theorem getD_snoc (l : List Byte) (x : Byte) (k : Nat) :
    (l ++ [x]).getD k 0#8 = if k = l.length then x else l.getD k 0#8 := by
  rcases Nat.lt_trichotomy k l.length with hk | hk | hk
  · rw [if_neg (by omega), List.getD_append _ _ _ _ hk]
  · subst hk
    simp [List.getD]
  · rw [if_neg (by omega), List.getD_eq_default _ _ (by simp; omega), List.getD_eq_default _ _ (by omega)]

/-- Gathering a bit changes one bit of the byte being gathered, as the flush shows it. -/
theorem flushed_gatherBit (b : Bool) {a : Accumulator} (h : a.stored.length < Config.bufBytes) (k : Nat) :
    flushed (gatherBit b a) k =
      if k = a.stored.length then byteWithBit a.acc (7 - a.count) b else flushed a k := by
  unfold gatherBit flushed
  simp only [if_pos h]
  split <;> simp only [getD_snoc]
  · split_ifs with h1 h2
    · subst h1
      simp at h2
    · subst h1
      rw [List.getD_eq_default _ _ (by simp)]
    · rfl
    · rfl
  · split_ifs <;> rfl

end Sys2Proof.Machine
end

