-- ==== Sys2Proof/Laws/Run.lean ====
section
/-! SUPPORT. Several steps: the host's `run` by its first and by its last step; what the frame of a sequence is made of. -/

namespace Sys2Proof.Machine

@[simp] theorem run_zero (s : State) : core.run 0 s = .next s := rfl

/-- A run of any machine by its first step. -/
theorem coreRun_succ_of_step (M : Host.Core) {s u : M.State} (h : M.step s = .next u) (k : Nat) :
    M.run (k + 1) s = M.run k u := by
  rw [Host.Core.run, h]

/-- A run by its first step. -/
theorem run_succ_of_step {s u : State} (h : step s = .next u) (k : Nat) :
    core.run (k + 1) s = core.run k u :=
  coreRun_succ_of_step core h k

/-- Every step answers a next state. -/
theorem step_total (s : State) : ∃ u, step s = .next u := by
  have hcases : s.input = [] ∨ ∃ item rest, s.input = item :: rest := by
    cases s.input <;> simp
  rcases hcases with hi | ⟨item, rest, hi⟩
  · exact ⟨_, step_idle hi⟩
  · cases item with
    | rst => exact ⟨_, step_rst hi⟩
    | command w =>
      rw [step_command hi]
      rcases decodeCommand_cases w with hd | hd <;> rw [hd] <;> exact ⟨_, rfl⟩

/-- A run by its last step. -/
theorem run_succ_of_run {k : Nat} {s u : State} (h : core.run k s = .next u) :
    core.run (k + 1) s = step u := by
  induction k generalizing s with
  | zero =>
    obtain ⟨t, ht⟩ := step_total s
    cases h
    rw [run_succ_of_step ht, ht]
    rfl
  | succ k ih =>
    obtain ⟨t, ht⟩ := step_total s
    rw [run_succ_of_step ht] at h
    rw [run_succ_of_step ht]
    exact ih h

/-- Two ways to read the same 33 symbols give the same frame. -/
theorem frameOf_congr (T : Vector Sym 256) {f g : Nat → Sym} (h : ∀ i, i < 33 → f i = g i) :
    frameOf T f = frameOf T g := by
  have h0 := h 0 (by omega)
  have hl : ∀ i : Fin 32, f (i.val + 1) = g (i.val + 1) := fun i => h _ (by omega)
  simp only [frameOf, h0, hl]

/-- The result of `decode` on a non-empty sequence. -/
theorem decodeRuns_of_ne_nil (T : Vector Sym 256) {ts : List Int} (h : ts ≠ []) :
    decodeRuns T ts =
      some (frameOf T (symbolOf fun n => (expand ts).bits.getD n false),
        ⟨(expand ts).trunc,
          (subdec T (symbolOf (fun n => (expand ts).bits.getD n false) 0)).subErr⟩) :=
  if_neg h

@[simp] theorem decodeRuns_nil (T : Vector Sym 256) : decodeRuns T [] = none := rfl

/-- The frame the output registers hold after a producing `END`. -/
theorem heldFrame_endFrame (s : State) :
    heldFrame (endFrame s) = some (frameOf s.table (stateSymbol s)) := rfl

theorem heldSideFlags_endFrame (s : State) :
    heldSideFlags (endFrame s) = some ⟨s.truncW, (subdec s.table (stateSymbol s 0)).subErr⟩ := rfl

end Sys2Proof.Machine
end

