-- ==== Sys2Proof/Laws/Work.lean ====
section
/-! SUPPORT. The counted operations give the results of the plain ones, and how much each counts. -/

namespace Sys2Proof.Machine

theorem emitBitCounted_eq (b : Bool) (s : State) (n : Nat) :
    emitBitCounted b (s, n) = (emitBit b s, n + min 1 (Config.bufBits - s.wp)) := by
  unfold emitBitCounted
  congr 1
  simp only
  split <;> omega

theorem emitZerosCounted_eq (k : Nat) (s : State) (n : Nat) :
    emitZerosCounted k (s, n) = (emitZeros k s, n + min k (Config.bufBits - s.wp)) := by
  induction k generalizing s n with
  | zero => simp [emitZerosCounted, emitZeros]
  | succ k ih =>
    rw [emitZerosCounted, emitBitCounted_eq, ih, emitZeros, emitBit_wp]
    congr 1
    omega

/-- A field of width `w` is read by `w` bit reads. -/
theorem fieldCounted_eq (bit : Nat → Bool) (off w : Nat) : fieldCounted bit off w = (field bit off w, w) := by
  induction w with
  | zero => rfl
  | succ w ih => rw [fieldCounted, ih, field]

/-- A symbol is read by 14 bit reads. -/
theorem symbolCounted_eq (bit : Nat → Bool) (i : Nat) : symbolCounted bit i = (symbolOf bit i, 14) := by
  rw [symbolCounted, fieldCounted_eq, symbolOf]
  rfl

theorem searchCounted_fst (l : List Sym) (c : Sym) (v : Nat) : (searchCounted l c v).1 = searchFrom l c v := by
  induction l generalizing v with
  | nil => rfl
  | cons x l ih =>
    rw [searchCounted, searchFrom]
    split
    · rfl
    · exact ih (v + 1)

theorem searchCounted_snd_le (l : List Sym) (c : Sym) (v : Nat) : (searchCounted l c v).2 ≤ l.length := by
  induction l generalizing v with
  | nil => exact Nat.le_refl _
  | cons x l ih =>
    rw [searchCounted, List.length_cons]
    split
    · exact Nat.succ_le_succ (Nat.zero_le _)
    · exact Nat.succ_le_succ (ih (v + 1))

/-- A search that finds nothing compares every word. -/
theorem searchCounted_snd_of_none {l : List Sym} {c : Sym} {v : Nat} (h : searchFrom l c v = none) :
    (searchCounted l c v).2 = l.length := by
  induction l generalizing v with
  | nil => rfl
  | cons x l ih =>
    rw [searchFrom] at h
    rw [searchCounted, List.length_cons]
    split at h
    · cases h
    · rename_i hx
      rw [if_neg hx]
      exact congrArg (· + 1) (ih h)

/-- A search that finds `u` compares the words up to it. -/
theorem searchCounted_snd_of_some {l : List Sym} {c : Sym} {v : Nat} {u : Byte} (hl : v + l.length ≤ 256)
    (h : searchFrom l c v = some u) : v + (searchCounted l c v).2 = u.toNat + 1 := by
  induction l generalizing v with
  | nil => cases h
  | cons x l ih =>
    rw [List.length_cons] at hl
    rw [searchFrom] at h
    rw [searchCounted]
    split at h
    · rename_i hx
      cases h
      rw [if_pos hx, BitVec.toNat_ofNat]
      omega
    · rename_i hx
      rw [if_neg hx]
      have := ih (by omega) h
      simp only
      omega

theorem translateCounted_fst (T : Vector Sym 256) (c : Sym) : (translateCounted T c).1 = translate T c :=
  searchCounted_fst ..

theorem translateCounted_snd_le (T : Vector Sym 256) (c : Sym) : (translateCounted T c).2 ≤ 256 := by
  have h := searchCounted_snd_le T.toList c 0
  rwa [Vector.length_toList] at h

theorem subdecCounted_fst (T : Vector Sym 256) (c : Sym) : (subdecCounted T c).1 = subdec T c := by
  unfold subdecCounted subdec
  rw [← translateCounted_fst]
  split_ifs
  · rfl
  · rfl
  · simp only
    cases (translateCounted T c).1 <;> rfl

theorem subdecCounted_snd_le (T : Vector Sym 256) (c : Sym) : (subdecCounted T c).2 ≤ 256 := by
  have h := translateCounted_snd_le T c
  unfold subdecCounted
  split_ifs
  · exact Nat.zero_le _
  · exact Nat.zero_le _
  · simp only
    cases (translateCounted T c).1 <;> exact h

theorem datadecCounted_fst (T : Vector Sym 256) (c : Sym) : (datadecCounted T c).1 = datadec T c := by
  unfold datadecCounted datadec
  rw [← translateCounted_fst]
  simp only
  cases (translateCounted T c).1 <;> rfl

theorem datadecCounted_snd (T : Vector Sym 256) (c : Sym) :
    (datadecCounted T c).2 = (translateCounted T c).2 := by
  unfold datadecCounted
  simp only
  cases (translateCounted T c).1 <;> rfl

end Sys2Proof.Machine
end

