-- ==== Sys2Proof/Tests/Slice0.lean ====
section
/-! SUPPORT. Own tests: ill-formed terms, words written out from the spec's encodings, one-step tests with the results of 95_test_vectors.md, and for every obligation with hypotheses a witness that meets them. -/

namespace Sys2Proof.Tests

open Sys2Proof Sys2Proof.Machine

/-! ### WellFormed: one ill-formed term for each check -/

theorem test_wellFormed_refuses_run_above_255 : Instr.wellFormed (.run 256) = false := by decide
theorem test_wellFormed_refuses_run_below_0 : Instr.wellFormed (.run (-1)) = false := by decide
theorem test_wellFormed_refuses_subcode_s0 : Instr.wellFormed (.subcode 0x801#14) = false := by decide
theorem test_wellFormed_refuses_subcode_s1 : Instr.wellFormed (.subcode 0x012#14) = false := by decide

/-! ### Decoding: words written out bit by bit (30_encoding.md R72, R73, R78, R79) -/

/-- R72: `0tttttttt` with t = 5; V-RN1 prints it 005. -/
theorem test_decode_run : decode .cmd 0b000000101 = .ok (.run 5) := by decide
/-- R73: `1xxxxxxxx`, canonical spelling. -/
theorem test_decode_end : decode .cmd 0b100000000 = .ok .endCmd := by decide
/-- R73: any other spelling is the same command. -/
theorem test_decode_end_other_spelling : decode .cmd 0b111111111 = .ok .endCmd := by decide
/-- R79: S0 is 00100000000001. -/
theorem test_decode_sync0 : decode .sym0 0b00100000000001 = .ok .sync0 := by decide
/-- R79: S1 is 00000000010010. -/
theorem test_decode_sync1 : decode .sym0 0b00000000010010 = .ok .sync1 := by decide
/-- V-SUB7: 0x2801 is no sync code, all 14 bits are compared. -/
theorem test_decode_subcode : decode .sym0 0b10100000000001 = .ok (.subcode 0x2801#14) := by decide
/-- V-DAT4: a sync code in a data slot is an ordinary value. -/
theorem test_decode_data : decode (.symD 7) 0b00100000000001 = .ok (.data 7 0x0801#14) := by decide
/-- A tenth bit is no command word. -/
theorem test_decode_rejects_by_name : decode .cmd 0b1000000000 = .error (.wordTooWide .cmd 512) := by decide

/-! ### The numbers of 00_scope.md R8 tie together as R8 says -/

theorem test_config_ties :
    Config.bufBits = 8 * Config.bufBytes ∧ Config.frameBits + Config.padBits = Config.bufBits ∧
    Config.firstOff = Config.hdrBits + Config.mergeBits ∧ Config.stride = Config.symBits + Config.mergeBits ∧
    Config.firstOff + Config.nSym * Config.stride = Config.frameBits ∧
    Config.firstOff + 32 * Config.stride + 13 = 584 ∧ Config.nSym = Config.nData + 1 := by decide

/-! ### A small table and small states -/

/-- A table that holds the fixture's words of 95_test_vectors.md section 2 at the source values 0, 8, 65, 255, and 0x3FFF everywhere else. -/
def smallTable : Vector Sym 256 where
  toArray := ⟨0x0008#14 :: List.replicate 7 0x3FFF#14 ++ 0x0040#14 :: List.replicate 56 0x3FFF#14 ++
    0x0421#14 :: List.replicate 189 0x3FFF#14 ++ [0x2449#14]⟩
  size_toArray := by decide +kernel

/-- The reset state with the small table. -/
def fresh : State := { State.reset with table := smallTable }

/-- A state being filled: these cells, this cursor. -/
def filling (cb : Memory) (wp : Nat) : State := { fresh with cb := cb, wp := wp, haveRun := true }

/-- A check of the next state. -/
def nextHas (p : State → Bool) : Host.Outcome State Fault Refusal → Bool
  | .next u => p u
  | .fault _ => false
  | .refused _ => false

/-! ### One step of each instruction -/

/-- V-RN2: after `RUN 5`, `RUN 3` puts a 1 at stream index 5; CBB[0] = 84. -/
theorem test_run_3_after_run_5 :
    nextHas (fun u => decide (u.cb = [(0, 0x84#8)] ∧ u.wp = 8 ∧ u.haveRun = true ∧ u.truncW = false))
      (exec (.run 3) (filling [(0, 0x80#8)] 5)) = true := by decide
/-- V-RN6: at 590 a run of 3 stores two bits and loses one. -/
theorem test_run_3_at_590 :
    nextHas (fun u => decide (u.cb = [(73, 0x02#8)] ∧ u.wp = 592 ∧ u.truncW = true))
      (exec (.run 3) (filling [] 590)) = true := by decide
/-- R166's example: after reset, `END` gives MISSING = 1, FV = 0, event missing. -/
theorem test_end_after_reset :
    nextHas (fun u => decide (u.missing = true ∧ u.fv = false ∧ u.event = some .missing))
      (exec .endCmd State.reset) = true := by decide
/-- R125's example: bytes 3 to 5 `04 00 90` hold S0 in slot 0. -/
theorem test_end_with_s0 :
    nextHas (fun u => decide (u.sync0 = true ∧ u.sync1 = false ∧ u.sub = 0x00#8 ∧ u.fv = true ∧ u.cb = [] ∧ u.wp = 0))
      (exec .endCmd (filling [(3, 0x04#8), (5, 0x90#8)] 48)) = true := by decide
/-- V-SUB1. -/
theorem test_sync0 : nextHas (fun u => decide (u.sync0 = true ∧ u.sync1 = false ∧ u.sub = 0x00#8 ∧ u.subErr = false))
    (exec .sync0 { fresh with sync1 := true, sub := 0x55#8, subErr := true }) = true := by decide
/-- V-SUB2. -/
theorem test_sync1 : nextHas (fun u => decide (u.sync0 = false ∧ u.sync1 = true ∧ u.sub = 0x00#8 ∧ u.subErr = false))
    (exec .sync1 { fresh with sync0 := true, sub := 0x55#8, subErr := true }) = true := by decide
/-- V-SUB3. -/
theorem test_subcode_found :
    nextHas (fun u => decide (u.sub = 0x41#8 ∧ u.sync0 = false ∧ u.sync1 = false ∧ u.subErr = false))
      (exec (.subcode 0x0421#14) { fresh with sync0 := true, subErr := true }) = true := by decide +kernel
/-- V-SUB4. -/
theorem test_subcode_not_found :
    nextHas (fun u => decide (u.sub = 0xFF#8 ∧ u.subErr = true)) (exec (.subcode 0x2488#14) fresh) = true := by decide +kernel
/-- V-DAT1. -/
theorem test_data_found :
    nextHas (fun u => decide (u.data[1] = 0x08#8 ∧ u.err[1] = false ∧ u.data[2] = 0x00#8))
      (exec (.data 1 0x0040#14) fresh) = true := by decide +kernel
/-- V-DAT4: a sync code in a data slot, not in the table. -/
theorem test_data_sync_code :
    nextHas (fun u => decide (u.data[7] = 0x00#8 ∧ u.err[7] = true ∧ u.sync0 = false))
      (exec (.data 7 0x0801#14) fresh) = true := by decide +kernel

/-! ### The pure functions -/

/-- V-CL1, V-CL4, V-CL5, V-CL9, V-CL10, V-CL14. -/
theorem test_clamp : clamp (-5) = 3 ∧ clamp 2 = 3 ∧ clamp 3 = 3 ∧ clamp 11 = 11 ∧ clamp 12 = 11 ∧ clamp 1000000000 = 11 := by
  decide

/-- V-EP3: cursor 31, 1 bits at 0, 3, 6, 17, 28. -/
theorem test_expand_clamps :
    (expand [0, 2, 12, 255, -5]).wp = 31 ∧
    (List.range 40).filter (fun n => (expand [0, 2, 12, 255, -5]).bits.getD n false) = [0, 3, 6, 17, 28] := by decide +kernel

/-- Bytes `A5 3C F0 0F 81` as bits, 95_test_vectors.md section 3.3. -/
def bufferX : List Bool := (List.range 40).map (Memory.bit [(0, 0xA5#8), (1, 0x3C#8), (2, 0xF0#8), (3, 0x0F#8), (4, 0x81#8)])

/-- V-EX5, V-EX15, V-EX17, V-EX18, V-EX19. -/
theorem test_extract :
    extract bufferX 5 14 = .ok 0x29E7 ∧ extract bufferX 9 31 = .ok 0x3CF00F81 ∧ extract bufferX 40 0 = .ok 0 ∧
    extract bufferX 27 14 = .error (.extractOutOfDomain 27 14) ∧
    extract bufferX 0 32 = .error (.extractOutOfDomain 0 32) := by decide

/-- V-TR15: the lowest index of a duplicate code wins. -/
theorem test_translate_first_match :
    Machine.translate (smallTable.set 3 0x0040#14) 0x0040#14 = some 3#8 ∧
    Machine.translate smallTable 0x0000#14 = none := by decide +kernel

/-! ### The step -/

/-- V-RN1 through the port: word 005. -/
theorem test_step_command :
    nextHas (fun u => decide (u.wp = 5 ∧ u.cb = [(0, 0x80#8)] ∧ u.input = []))
      (step { fresh with input := [.command 0x005#9] }) = true := by decide

/-- Status of the reset state: R32's reset column for FV and MISSING, no value for the other two. -/
theorem test_status_after_reset : outStatus State.reset = #v[some false, some false, none, none] := by decide

/-! ### Witnesses: for every obligation with hypotheses, data that meet them all -/

theorem witness_CommandWordSelectsByBitEight :
    0x0FF#9 &&& 0x100#9 = 0x000#9 ∧ 0x100#9 &&& 0x100#9 = 0x100#9 ∧ 0x1FF#9 &&& 0x100#9 = 0x100#9 := by decide

theorem witness_DecodeAfterEncode :
    Instr.wellFormed (.run 0) = true ∧ Instr.wellFormed (.run 255) = true ∧ Instr.wellFormed .endCmd = true ∧
    Instr.wellFormed .sync0 = true ∧ Instr.wellFormed .sync1 = true ∧ Instr.wellFormed (.subcode 0x3FFF#14) = true ∧
    Instr.wellFormed (.data 31 0x0801#14) = true := by decide

theorem witness_EncodeAfterDecode :
    decode .cmd 0x0FF = .ok (.run 255) ∧ decode .cmd 0x1FF = .ok .endCmd ∧
    decode .sym0 0x0000 = .ok (.subcode 0x0000#14) ∧ decode (.symD 31) 0x3FFF = .ok (.data 31 0x3FFF#14) := by decide

theorem witness_DecoderTakesTheFirstMatchingRow :
    511 < 2 ^ (Format.cmd).width ∧ 2 ^ (Format.cmd).width ≤ 512 ∧ 16383 < 2 ^ (Format.symD 31).width ∧
    2 ^ (Format.sym0).width ≤ 16384 := by decide

/-- `ClampLimitsARunLength`, `ClampIsIdempotentAndMonotone`, `OutOfRangeRunActsAsItsClampedValue`: the edges 2, 3, 11, 12. -/
theorem witness_clamp_edges :
    (2 : Int) < 3 ∧ (11 : Int) < 12 ∧ ((3 : Int) ≤ 3 ∧ (3 : Int) ≤ 11) ∧ ((3 : Int) ≤ 11 ∧ (11 : Int) ≤ 11) := by decide

theorem witness_ExpandClosedForm : 591 < 592 ∧ (0 < [(3 : Int), 4].length ∧ runStart [3, 4] 1 = 3) := by decide

theorem witness_OnesAreThreeToElevenApart :
    [(3 : Int), 4] ≠ [] ∧ 0 < 3 ∧ (expand [3, 4]).bits.getD 0 false = true ∧ (expand [3, 4]).bits.getD 3 false = true ∧
    (∀ n, 0 < n → n < 3 → (expand [3, 4]).bits.getD n false = false) := by
  refine ⟨by decide, by decide, by decide, by decide, fun n h0 h3 => ?_⟩
  have h : n = 1 ∨ n = 2 := by omega
  rcases h with rfl | rfl <;> decide

/-- `BitWriteLandsMostSignificantFirst`, `ByteViewIsTheSumOfItsBits`: both sides of 592, of 7 - 591 mod 8 and of 74. -/
theorem witness_buffer_edges :
    Memory.wf [(73, 0x02#8)] = true ∧ 592 ≤ 592 ∧ 591 < 592 ∧ 0 = 7 - 591 % 8 ∧ 74 ≤ 74 := by decide

theorem witness_EqualBufferBitsAreEqualData :
    Memory.wf (Memory.setBit [(3, 0x04#8)] 591 true) = true ∧ Memory.wf (Memory.setBit [(73, 0x01#8)] 29 true) = true ∧
    ∀ n, n < 592 → (Memory.setBit [(3, 0x04#8)] 591 true).bit n = (Memory.setBit [(73, 0x01#8)] 29 true).bit n := by
  decide +kernel

/-- `ExtractIsTheBitSum`: the largest width ending at the buffer's end, one bit too wide, one bit too far. -/
theorem witness_ExtractIsTheBitSum :
    (31 ≤ 31 ∧ 9 + 31 ≤ bufferX.length) ∧ 31 < 32 ∧ bufferX.length < 10 + 31 := by decide

theorem witness_ExtractOfAdjacentFieldsConcatenates : 8 + 23 ≤ 31 ∧ 9 + (8 + 23) ≤ bufferX.length := by decide

theorem witness_FixedOffsetReadsGiveTheSymbols : 32 < 33 ∧ 13 ≤ 13 := by decide

/-- `TranslateReturnsTheFirstMatch`: a code that is found and one that is not. -/
theorem witness_TranslateReturnsTheFirstMatch :
    (tableRead smallTable 8#8 = 0x0040#14 ∧ ∀ u : Byte, u.toNat < 8 → tableRead smallTable u ≠ 0x0040#14) ∧
    ∀ u : Byte, tableRead smallTable u ≠ 0x0000#14 := by
  refine ⟨by decide +kernel, fun u hu => ?_⟩
  have h : (0x0000#14 : Sym) ∈ smallTable.toList := (mem_table_iff smallTable 0x0000#14).2 ⟨u, hu⟩
  exact absurd h (by decide +kernel)

/-- An injective table exists: word `v` is `v`. -/
theorem witness_TranslateInvertsAnInjectiveTable :
    ∀ u v : Byte, tableRead (Vector.ofFn fun i : Fin 256 => BitVec.ofNat 14 i.val) u =
      tableRead (Vector.ofFn fun i : Fin 256 => BitVec.ofNat 14 i.val) v → u = v := by
  intro u v h
  have h' : BitVec.ofNat 14 u.toNat = BitVec.ofNat 14 v.toNat := by simpa [tableRead] using h
  have := congrArg BitVec.toNat h'
  simp only [BitVec.toNat_ofNat] at this
  exact BitVec.eq_of_toNat_eq (by omega)

/-- `RunExpandsAtTheCursor`, `CeilingConditionSetsTheWorkingFlag`: an exact fit, a cut run, a full buffer, one bit each side of the ceiling. -/
theorem witness_RunExpandsAtTheCursor :
    (filling [] 589).cb.wf = true ∧ min (clamp 3).toNat (592 - (filling [] 589).wp) = 3 ∧
    min (clamp 3).toNat (592 - (filling [] 590).wp) = 2 ∧ min (clamp 3).toNat (592 - (filling [] 592).wp) = 0 ∧
    ¬ 592 < (filling [] 589).wp + (clamp 3).toNat ∧ 592 < (filling [] 590).wp + (clamp 3).toNat := by decide

theorem witness_RunAtTheCeilingIsDiscarded :
    (filling [(73, 0x02#8)] 592).wp = 592 ∧ (filling [(73, 0x02#8)] 592).haveRun = true := by decide

/-- A cleared fill state: `StreamingEqualsBatch`, `FrameScriptRefinesDecode`, `SymbolsBeyondTheCursorAreZero` (cursor 0). -/
theorem witness_StreamingEqualsBatch :
    [(3 : Int), 300] ≠ [] ∧ fresh.cb.wf = true ∧ FillInv fresh ∧ fresh.haveRun = false :=
  ⟨by decide, rfl, fillInv_of_cleared rfl rfl rfl, rfl⟩

/-- `SubcodeDecodesSlotZero`: each clause; the two sync codes fall under the first two only. -/
theorem witness_SubcodeDecodesSlotZero :
    ((0x0421#14 : Sym) ≠ 0x0801#14 ∧ (0x0421#14 : Sym) ≠ 0x0012#14 ∧ Machine.translate smallTable 0x0421#14 = some 0x41#8) ∧
    ((0x2488#14 : Sym) ≠ 0x0801#14 ∧ (0x2488#14 : Sym) ≠ 0x0012#14 ∧ Machine.translate smallTable 0x2488#14 = none) ∧
    (0x0801#14 : Sym) ≠ 0x0012#14 := by decide +kernel

theorem witness_DataDecodesItsLaneOnly :
    Machine.translate smallTable 0x2449#14 = some 0xFF#8 ∧ Machine.translate smallTable 0x0801#14 = none ∧ (0 : Fin 32) ≠ 31 := by
  decide +kernel

theorem witness_EndWithoutInputOnlySignals : State.reset.haveRun = false := rfl

/-- The buffer of `[11, 11, 5]`, with a symbol 1 that is 0x0040 (stream index 51) put in by hand. -/
def endState : State := filling [(0, 0x80#8), (1, 0x10#8), (2, 0x02#8), (6, 0x10#8)] 58

/-- The `END` statements: `HAVE = 1`, slot 1 found, slot 2 and slot 0 not found. -/
theorem witness_EndPublishesTheFrameAndClears :
    endState.haveRun = true ∧ Machine.translate endState.table (symbolOf endState.cb.bit 1) = some 8#8 ∧
    Machine.translate endState.table (symbolOf endState.cb.bit 2) = none ∧
    symbolOf endState.cb.bit 0 ≠ 0x0801#14 ∧ symbolOf endState.cb.bit 0 ≠ 0x0012#14 ∧
    Machine.translate endState.table (symbolOf endState.cb.bit 0) = none := by decide +kernel

/-- The two sync clauses of `EndPublishesTheFrameAndClears`: S0 at stream indices 29 and 40, S1 at 36 and 39 (R79). -/
theorem witness_EndPublishesTheFrameAndClears_sync :
    symbolOf (Memory.bit [(3, 0x04#8), (5, 0x80#8)]) 0 = 0x0801#14 ∧
    symbolOf (Memory.bit [(4, 0x09#8)]) 0 = 0x0012#14 := by decide +kernel

/-- `ConditionsAreReportedInOrder`, `EndRunsItsDecodedSymbols`: an `END` that produces, with failed slots; `fresh` is one without input. -/
theorem witness_ConditionsAreReportedInOrder :
    endState.haveRun = true ∧ fresh.haveRun = false ∧ Condition.translationFailure 0 ∈ conditions .endCmd endState ∧
    Condition.translationFailure 32 ∈ conditions .endCmd endState ∧
    Condition.translationFailure 1 ∉ conditions .endCmd endState ∧
    nextHas (fun u => decide (u.event = some .frameValid)) (exec .endCmd endState) = true := by decide +kernel

/-- `OneEventPerEndAndNonePerRun`: both kinds of command answer a next state. -/
theorem witness_OneEventPerEndAndNonePerRun :
    exec .endCmd endState = .next (endFrame endState) ∧ exec (.run 12) endState = .next (runState 12 endState) := ⟨rfl, rfl⟩

/-- Two states that differ in a header bit only (and in the cursor). -/
theorem witness_FrameDependsOnSymbolBitsOnly :
    endState.haveRun = true ∧ (filling [(0, 0x90#8), (1, 0x10#8), (2, 0x02#8), (6, 0x10#8)] 592).haveRun = true ∧
    endState.table = (filling [(0, 0x90#8), (1, 0x10#8), (2, 0x02#8), (6, 0x10#8)] 592).table ∧
    (∀ i, i < 33 → ∀ j, j < 14 → endState.cb.bit (27 + 17 * i + j) =
      (filling [(0, 0x90#8), (1, 0x10#8), (2, 0x02#8), (6, 0x10#8)] 592).cb.bit (27 + 17 * i + j)) ∧
    exec .endCmd endState = .next (endFrame endState) := ⟨rfl, rfl, rfl, by decide +kernel, rfl⟩

/-- Two states that differ in other slots, not in lane 0. -/
theorem witness_LanesAreIndependent :
    (filling [(3, 0x04#8), (5, 0x80#8), (6, 0x10#8)] 58).haveRun = true ∧
    (∀ j, j < 14 → endState.cb.bit (27 + 17 * ((0 : Fin 32).val + 1) + j) =
      (filling [(3, 0x04#8), (5, 0x80#8), (6, 0x10#8)] 58).cb.bit (27 + 17 * ((0 : Fin 32).val + 1) + j)) ∧
    endState.table = (filling [(3, 0x04#8), (5, 0x80#8), (6, 0x10#8)] 58).table := ⟨rfl, by decide +kernel, rfl⟩

/-- The state after the runs 11, 11, 5: cursor 27. -/
def atTwentySeven : State := filling [(0, 0x80#8), (1, 0x10#8), (2, 0x02#8)] 27

theorem atTwentySeven_bit {n : Nat} (h : 27 ≤ n) : atTwentySeven.cb.bit n = false := by
  by_cases hn : n < 32
  · have h' : n = 27 ∨ n = 28 ∨ n = 29 ∨ n = 30 ∨ n = 31 := by omega
    rcases h' with rfl | rfl | rfl | rfl | rfl <;> decide
  · have h0 : ¬ 0 = n / 8 := by omega
    have h1 : ¬ 1 = n / 8 := by omega
    have h2 : ¬ 2 = n / 8 := by omega
    simp [atTwentySeven, filling, Memory.bit, Memory.readByte, unlistedByte, h0, h1, h2]

/-- The cursor stands exactly where symbol 0 starts. -/
theorem witness_SymbolsBeyondTheCursorAreZero : FillInv atTwentySeven ∧ atTwentySeven.wp ≤ 27 + 17 * 0 := by
  refine ⟨⟨by decide, fun n h => atTwentySeven_bit h, ?_, ?_, ?_, ?_⟩, by decide⟩
  · intro h; cases h
  · intro h; cases h
  · intro h; cases h
  · intro h; cases h

/-- `DecodeChainsTheThreeStages`: both clauses are met, by `[]` and by V-DE2's `[7]`. -/
theorem witness_DecodeChainsTheThreeStages : ([] : List Int) = [] ∧ [(7 : Int)] ≠ [] := by decide

/-- V-EP18's sequence fills the buffer exactly. -/
theorem witness_ExcessRunsChangeAtMostTrunc :
    (expand (List.replicate 53 11 ++ [9])).wp = 592 ∧
    (decodeRuns smallTable (List.replicate 53 11 ++ [9])).isSome = true := by decide +kernel

/-- Value 8, whose code is 0x0040, in data slot 0. -/
theorem witness_EncodedValueRoundTrips :
    (∀ u : Byte, u.toNat < (8#8).toNat → tableRead smallTable u ≠ tableRead smallTable 8#8) ∧
    [(11 : Int), 11, 11, 9, 9, 11] ≠ [] ∧
    extract (expand [11, 11, 11, 9, 9, 11]).bits (27 + 17 * ((0 : Fin 32).val + 1)) 14 = .ok (tableRead smallTable 8#8).toNat := by
  decide +kernel

/-- Both scripts of `FrameScriptRefinesDecode`: one run and no run. -/
theorem witness_FrameScriptRefinesDecode :
    (∃ s : State, s.cb.wf = true ∧ FillInv s ∧ s.haveRun = false ∧ s.input = frameScript [7#8] ++ [] ∧
      (decodeRuns s.table ([7#8].map tval)).isSome = true) ∧
    ∃ s : State, s.cb.wf = true ∧ FillInv s ∧ s.haveRun = false ∧ s.input = frameScript [] ++ [.rst] ∧
      decodeRuns s.table (([] : List Byte).map tval) = none :=
  ⟨⟨{ fresh with input := frameScript [7#8] ++ [] }, rfl, fillInv_of_cleared rfl rfl rfl, rfl, rfl, rfl⟩,
    ⟨{ fresh with input := frameScript [] ++ [.rst] }, rfl, fillInv_of_cleared rfl rfl rfl, rfl, rfl, rfl⟩⟩

theorem witness_StepExecutesTheDecodedCommand :
    ({ fresh with input := [.command 0x165#9] } : State).input = .command 0x165#9 :: [] ∧
    decode .cmd (0x165#9).toNat = .ok .endCmd ∧ decode .cmd (0x007#9).toNat = .ok (.run 7) ∧ fresh.input = [] := ⟨rfl, rfl, rfl, rfl⟩

theorem witness_ResetClearsAndKeepsTheTable :
    ({ endState with input := [.rst, .command endWord] } : State).input = .rst :: [.command endWord] := rfl

/-- `EveryStepKeepsTheInvariant`: a state after a run, with an `END` to come. -/
theorem witness_EveryStepKeepsTheInvariant :
    Inv { atTwentySeven with input := [.command endWord] } ∧
    step { atTwentySeven with input := [.command endWord] } = .next (endFrame atTwentySeven) := by
  refine ⟨⟨rfl, ?_, ⟨by decide, fun _ => by decide⟩, ⟨?_, ?_, ?_, ?_⟩⟩, rfl⟩
  · have h := witness_SymbolsBeyondTheCursorAreZero.1
    exact ⟨h.1, h.2, h.3, h.4, h.5, h.6⟩
  all_goals intro h; cases h

/-- `FillStateIsAlwaysAnExpansion`, `ByteAccumulatorBuildsTheSameBuffer`: a state filled by two runs (V-RN1, V-RN2). -/
theorem witness_FilledBy :
    (runState 3 (runState 5 fresh)).cb.wf = true ∧ FilledBy (runState 3 (runState 5 fresh)) [5, 3] ∧
    (runState 3 (runState 5 fresh)).wp < 592 :=
  ⟨by decide, filledBy_runState (ts := [5]) (by decide)
    (filledBy_runState (ts := []) (by decide) (filledBy_nil_of_empty (fillInv_of_cleared rfl rfl rfl) rfl) 5) 3, by decide⟩

/-- The four clauses of `FillStateIsAlwaysAnExpansion`: nothing presented, `rst`, a `RUN` word, an `END` word. -/
theorem witness_FillStateIsAlwaysAnExpansion :
    fresh.input = [] ∧ decodeCommand 0x0FF#9 = .run 255 ∧ decodeCommand 0x1FF#9 = .endCmd ∧
    step { fresh with input := [.command 0x0FF#9] } = .next (runState 255 fresh) ∧
    step { fresh with input := [.rst] } = .next fresh := ⟨rfl, rfl, rfl, rfl, rfl⟩

theorem witness_TableNeverChanges :
    step { endState with input := [.command endWord] } = .next (endFrame endState) ∧
    exec .sync1 fresh = .next { fresh with sync0 := false, sync1 := true, sub := 0#8, subErr := false } := ⟨rfl, rfl⟩

/-- `OutputRegistersChangeOnlyAtAFrame`: an `END` that finds no input. -/
theorem witness_OutputRegistersChangeOnlyAtAFrame :
    step { fresh with input := [.command endWord] } = .next (endEmpty fresh) ∧
    (∀ rest, ({ fresh with input := [.command endWord] } : State).input ≠ .rst :: rest) ∧
    (∀ w rest, ({ fresh with input := [.command endWord] } : State).input = .command w :: rest →
      decodeCommand w = .endCmd → ({ fresh with input := [.command endWord] } : State).haveRun = false) :=
  ⟨rfl, by simp, fun _ _ _ _ => rfl⟩

/-- `FrameValidFallsOnlyByReset`: a step that clears `FV` and one that sets it. -/
theorem witness_FrameValidFallsOnlyByReset :
    (step { fresh with fv := true, input := [.rst] } = .next fresh ∧ fresh.fv = false) ∧
    (endState.fv = false ∧ step { endState with input := [.command endWord] } = .next (endFrame endState) ∧
      (endFrame endState).fv = true) := ⟨⟨rfl, rfl⟩, rfl, rfl, rfl⟩

/-- `PreFrameContentsNeverShow`: a step that stays without a frame and one that gets one. -/
theorem witness_PreFrameContentsNeverShow :
    fresh.fv = false ∧ step { fresh with input := [.command endWord] } = .next (endEmpty fresh) ∧
    step { fresh with input := [.command endWord], sub := 0x77#8, sync0 := true } =
      .next (endEmpty { fresh with sub := 0x77#8, sync0 := true }) ∧
    step { endState with input := [.command endWord], sub := 0x77#8 } = .next (endFrame endState) := ⟨rfl, rfl, rfl, rfl⟩

/-- `OutFramePacksTheRegisters`, `StatusAndFrameReads`: a state that holds a frame, and one that holds none. -/
theorem witness_OutFramePacksTheRegisters : (endFrame endState).fv = true ∧ fresh.fv = false := ⟨rfl, rfl⟩

theorem witness_InstancesDoNotInterfere :
    0 < [fresh, endState].length ∧ 1 < [fresh, endState].length ∧ (0 : Nat) ≠ 1 ∧ shareTable smallTable [fresh, endState] := by
  refine ⟨by decide, by decide, by decide, fun s hs => ?_⟩
  rcases List.mem_cons.1 hs with rfl | hs
  · rfl
  · rw [List.mem_singleton.1 hs]; rfl

theorem witness_WorkIsBounded :
    endState.haveRun = true ∧ endState.wp ≤ 592 ∧ fresh.haveRun = false ∧
    ((filling [(3, 0x04#8), (5, 0x80#8)] 592).haveRun = true ∧
      symbolOf (filling [(3, 0x04#8), (5, 0x80#8)] 592).cb.bit 0 = 0x0801#14) ∧
    Machine.translate smallTable 0x2449#14 = some 255#8 ∧ Machine.translate smallTable 0x0000#14 = none := by decide +kernel

/-- `ByteAccumulatorBuildsTheSameBuffer`: byte 73 is inside, 74 is not; a cursor below the ceiling exists (`witness_FilledBy`). -/
theorem witness_ByteAccumulatorBuildsTheSameBuffer : 73 < 74 ∧ (runState 3 (runState 5 fresh)).wp < 592 := by decide

/-- `PlacedWordIsFetchedNext`: every kind of word, at the table's widths and at whole bytes. -/
theorem witness_PlacedWordIsFetchedNext :
    fresh.cb.wf = true ∧ decodeTableWord 9 0x0FF = some (.run 255) ∧ decodeTableWord 16 0x005 = some (.run 5) ∧
    decodeTableWord 16 0x100 = some .endCmd ∧ decodeTableWord 14 0x0801 = some .sync0 ∧
    decodeTableWord 16 0x0012 = some .sync1 ∧ decodeTableWord 14 0x0000 = some (.subcode 0x0000#14) ∧
    decodeTableWord 16 0x3FFF = some (.subcode 0x3FFF#14) := by decide

end Sys2Proof.Tests
end

section
/-! The byte view of the buffer (10_state.md R22): a byte is the 8-bit field that starts at its first bit, and a field is the sum of its weighted bits. -/

open Sys2Proof Sys2Proof.Machine

namespace Sys2Proof.Machine

/-- The loop of `extract` in closed form: each bit counts with the weight of its position, the first most significant. -/
theorem field_eq_sum (bit : Nat → Bool) (off w : Nat) :
    field bit off w = (Finset.range w).sum fun j => bitValue (bit (off + j)) * 2 ^ (w - 1 - j) := by
  induction w with
  | zero => rfl
  | succ w ih =>
    have hshift : ∀ j ∈ Finset.range w,
        bitValue (bit (off + j)) * 2 ^ (w + 1 - 1 - j) =
          2 * (bitValue (bit (off + j)) * 2 ^ (w - 1 - j)) := by
      intro j hj
      have hexp : w + 1 - 1 - j = w - 1 - j + 1 := by
        have := Finset.mem_range.1 hj
        omega
      rw [hexp, pow_succ]
      ring
    rw [field_succ, ih, Finset.sum_range_succ, Finset.sum_congr rfl hshift, Finset.mul_sum]
    simp

/-- Bit `8k + j` of the buffer is bit `7 - j` of byte `k`. -/
theorem Memory.bit_in_byte (m : Memory) (k : Nat) {j : Nat} (hj : j < 8) :
    m.bit (8 * k + j) = (m.readByte k).getLsbD (7 - j) := by
  have hdiv : (8 * k + j) / 8 = k := by omega
  have hmod : (8 * k + j) % 8 = j := by omega
  rw [Memory.bit, hdiv, hmod]

/-- A byte is the 8-bit field that starts at its first bit. -/
theorem Memory.readByte_toNat_eq_field (m : Memory) (k : Nat) :
    (m.readByte k).toNat = field m.bit (8 * k) 8 := by
  apply Nat.eq_of_testBit_eq
  intro i
  by_cases hi : i < 8
  · have hpos : 7 - (8 - 1 - i) = i := by omega
    rw [field_testBit _ _ _ _ hi, Memory.bit_in_byte m k (by omega), hpos, BitVec.testBit_toNat]
  · have hpow : 2 ^ 8 ≤ 2 ^ i := Nat.pow_le_pow_right (by omega) (by omega)
    rw [Nat.testBit_lt_two_pow ((m.readByte k).isLt.trans_le hpow),
      Nat.testBit_lt_two_pow ((field_lt ..).trans_le hpow)]

end Sys2Proof.Machine

/-- Settles O11: byte `k` is the field of its eight bits, and a field is the sum of its weighted bits. -/
theorem byteViewIsTheSumOfItsBits : Obligations.ByteViewIsTheSumOfItsBits := by
  intro m k
  constructor
  · rw [Memory.readByte_toNat_eq_field, field_eq_sum]
  · intro hwf hk
    exact Memory.readByte_outside hwf hk

end

section
/-! The event of each command (10_state.md R38). -/

open Sys2Proof Sys2Proof.Machine

namespace Sys2Proof.Machine

@[simp] theorem endFrame_event (s : State) : (endFrame s).event = some .frameValid := by
  simp [endFrame]

theorem exec_run (t : Int) (s : State) : exec (.run t) s = .next (runState t s) := rfl

theorem exec_endCmd (s : State) : exec .endCmd s = execEnd s := rfl

end Sys2Proof.Machine

/-- Settles O31: `END` splits on `HAVE`, and each branch and `RUN` set the event themselves. -/
theorem oneEventPerEndAndNonePerRun : Obligations.OneEventPerEndAndNonePerRun := by
  intro s u
  constructor
  · intro h
    rw [exec_endCmd] at h
    cases hhave : s.haveRun with
    | true =>
      rw [execEnd_frame hhave] at h
      cases h
      simp
    | false =>
      rw [execEnd_empty hhave] at h
      cases h
      simp
  · intro t h
    rw [exec_run] at h
    cases h
    exact runState_event t s

end

section
/-! `TABLE` is one value for the whole execution (20_memory.md R63): each instruction writes the state through an operation that keeps it. -/

open Sys2Proof Sys2Proof.Machine

namespace Sys2Proof.Machine

@[simp] theorem endFrame_table (s : State) : (endFrame s).table = s.table := by
  simp [endFrame]

theorem exec_sync0 (s : State) : exec .sync0 s = .next (writeSlot0 sync0Result s) := rfl

theorem exec_sync1 (s : State) : exec .sync1 s = .next (writeSlot0 sync1Result s) := rfl

theorem exec_subcode (c : Sym) (s : State) :
    exec (.subcode c) s = .next (writeSlot0 (subdec s.table c) s) := rfl

theorem exec_data (lane : Fin 32) (c : Sym) (s : State) :
    exec (.data lane c) s = .next (writeLane lane (datadec s.table c) s) := rfl

/-- Both branches of `END`, with and without input. -/
theorem execEnd_keeps_table {s u : State} (h : execEnd s = .next u) : u.table = s.table := by
  cases hhave : s.haveRun with
  | true =>
    rw [execEnd_frame hhave] at h
    cases h
    exact endFrame_table s
  | false =>
    rw [execEnd_empty hhave] at h
    cases h
    exact endEmpty_table s

theorem exec_keeps_table {i : Instr} {s u : State} (h : exec i s = .next u) :
    u.table = s.table := by
  cases i with
  | run t =>
    rw [exec_run] at h
    cases h
    exact runState_table t s
  | endCmd => exact execEnd_keeps_table h
  | sync0 =>
    rw [exec_sync0] at h
    cases h
    exact writeSlot0_table _ s
  | sync1 =>
    rw [exec_sync1] at h
    cases h
    exact writeSlot0_table _ s
  | subcode c =>
    rw [exec_subcode] at h
    cases h
    exact writeSlot0_table _ s
  | data lane c =>
    rw [exec_data] at h
    cases h
    exact writeLane_table lane _ s

/-- Reset too keeps `TABLE` (70_reset_and_hazards.md R210). -/
theorem step_keeps_table {s u : State} (h : step s = .next u) : u.table = s.table := by
  rcases step_cases h with ⟨-, rfl⟩ | ⟨rest, -, rfl⟩ | ⟨w, rest, t, -, -, rfl⟩ |
    ⟨w, rest, -, -, -, rfl⟩ | ⟨w, rest, -, -, -, rfl⟩
  · rfl
  · rw [assertReset_table, takeItem_table]
  · rw [runState_table, takeItem_table]
  · rw [endFrame_table, takeItem_table]
  · rw [endEmpty_table, takeItem_table]

end Sys2Proof.Machine

/-- Settles O46: no case of a step and no arm of `exec` writes `TABLE`. -/
theorem tableNeverChanges : Obligations.TableNeverChanges :=
  ⟨fun _ _ => step_keeps_table, fun _ _ _ => exec_keeps_table⟩

end

section
/-! Where the registers stand in the packed output words (30_encoding.md R82): one lemma for each row of the table, first of
the bit function, then of the word packed from it. -/

open Sys2Proof Sys2Proof.Machine

namespace Sys2Proof.Machine

/-- With `FV = 1` the held frame is what the output registers hold. -/
theorem heldFrame_of_fv {s : State} (hfv : s.fv = true) :
    heldFrame s = some ⟨s.data, s.err, s.sub, s.sync0, s.sync1⟩ :=
  if_pos hfv

/-- The default of `getD` is not seen at an index of the vector. -/
theorem toList_getD_fin {α : Type} {n : Nat} (v : Vector α n) (i : Fin n) (d : α) :
    v.toList.getD i.val d = v[i] := by
  simp [List.getD]

theorem frameBit_data (f : Frame) (i : Fin 32) {j : Nat} (hj : j < 8) :
    frameBit f (8 * i.val + j) = f.data[i].getLsbD j := by
  have hrange : 8 * i.val + j < 256 := by omega
  have hdiv : (8 * i.val + j) / 8 = i.val := by omega
  have hmod : (8 * i.val + j) % 8 = j := by omega
  rw [frameBit, if_pos hrange, hdiv, hmod, toList_getD_fin]

theorem frameBit_err (f : Frame) (i : Fin 32) : frameBit f (256 + i.val) = f.err[i] := by
  have hlow : ¬ 256 + i.val < 256 := by omega
  have hrange : 256 + i.val < 288 := by omega
  rw [frameBit, if_neg hlow, if_pos hrange, Nat.add_sub_cancel_left, toList_getD_fin]

theorem frameBit_sub (f : Frame) {j : Nat} (hj : j < 8) :
    frameBit f (288 + j) = f.sub.getLsbD j := by
  have hdata : ¬ 288 + j < 256 := by omega
  have herr : ¬ 288 + j < 288 := by omega
  have hrange : 288 + j < 296 := by omega
  rw [frameBit, if_neg hdata, if_neg herr, if_pos hrange, Nat.add_sub_cancel_left]

theorem frameBit_sync0 (f : Frame) : frameBit f 296 = f.sync0 := rfl

theorem frameBit_sync1 (f : Frame) : frameBit f 297 = f.sync1 := rfl

theorem packFrame_getLsbD (f : Frame) {n : Nat} (hn : n < 298) :
    (packFrame f).getLsbD n = frameBit f n := by
  rw [packFrame, packBits_getLsbD, decide_eq_true hn, Bool.true_and]

/-- Eight bits of `out_frame` are the byte `b` when each of them is the bit of `b` at the same place. -/
theorem packFrame_extract_byte {f : Frame} {off : Nat} {b : Byte} (hoff : off + 8 ≤ 298)
    (hbits : ∀ j, j < 8 → frameBit f (off + j) = b.getLsbD j) :
    (packFrame f).extractLsb' off 8 = b := by
  apply BitVec.eq_of_getLsbD_eq
  intro j hj
  rw [BitVec.getLsbD_extractLsb', decide_eq_true hj, Bool.true_and,
    packFrame_getLsbD f (by omega), hbits j hj]

theorem packFrame_data (f : Frame) (i : Fin 32) :
    (packFrame f).extractLsb' (8 * i.val) 8 = f.data[i] :=
  packFrame_extract_byte (by omega) fun _ hj => frameBit_data f i hj

theorem packFrame_err (f : Frame) (i : Fin 32) : (packFrame f).getLsbD (256 + i.val) = f.err[i] := by
  rw [packFrame_getLsbD f (by omega), frameBit_err]

theorem packFrame_sub (f : Frame) : (packFrame f).extractLsb' 288 8 = f.sub :=
  packFrame_extract_byte (by omega) fun _ hj => frameBit_sub f hj

theorem packFrame_sync0 (f : Frame) : (packFrame f).getLsbD 296 = f.sync0 := by
  rw [packFrame_getLsbD f (by omega), frameBit_sync0]

theorem packFrame_sync1 (f : Frame) : (packFrame f).getLsbD 297 = f.sync1 := by
  rw [packFrame_getLsbD f (by omega), frameBit_sync1]

theorem errWord_getLsbD (f : Frame) (i : Fin 32) : (errWord f).getLsbD i.val = f.err[i] := by
  rw [errWord, packBits_getLsbD, decide_eq_true i.isLt, Bool.true_and, toList_getD_fin]

end Sys2Proof.Machine

/-- Settles O50: with `FV = 1` the held frame is the registers, and each row of R82's table is a lemma about `packFrame`. -/
theorem outFramePacksTheRegisters : Obligations.OutFramePacksTheRegisters := by
  intro s hfv
  have hheld := heldFrame_of_fv hfv
  refine ⟨_, _, congrArg (Option.map packFrame) hheld, hheld, ?_,
    packFrame_sub _, packFrame_sync0 _, packFrame_sync1 _⟩
  intro i
  exact ⟨packFrame_data _ i, packFrame_err _ i, errWord_getLsbD _ i⟩

end

section
/-! Bit 8 of a command word selects the command (30_encoding.md R72, R73). -/

open Sys2Proof

namespace Sys2Proof

theorem decodeCommand_of_bit8_clear {w : CmdWord} (h : w.getLsbD 8 = false) :
    decodeCommand w = .run (tval (w.setWidth 8)) := by
  rw [decodeCommand, h]
  rfl

theorem decodeCommand_of_bit8_set {w : CmdWord} (h : w.getLsbD 8 = true) :
    decodeCommand w = .endCmd :=
  if_pos h

/-- The mask 0x100 of the opcode map's command rows lets bit 8 through. -/
theorem bit8_of_masked {w m : CmdWord} (h : w &&& 0x100#9 = m) : w.getLsbD 8 = m.getLsbD 8 := by
  have hmask : (0x100#9).getLsbD 8 = true := by decide
  rw [← h, BitVec.getLsbD_and, hmask, Bool.and_true]

end Sys2Proof

/-- Settles O2: the masked word tells bit 8, and the decoder branches on bit 8 alone. -/
theorem commandWordSelectsByBitEight : Obligations.CommandWordSelectsByBitEight := by
  refine ⟨fun w => ⟨fun hclear => ?_, fun hset => ?_⟩, rfl⟩
  · have hbit : w.getLsbD 8 = false := bit8_of_masked hclear
    exact decodeCommand_of_bit8_clear hbit
  · have hbit : w.getLsbD 8 = true := bit8_of_masked hset
    exact decodeCommand_of_bit8_set hbit

end

section
/-! The clamped run length and what `RUN` writes (40_expand.md R100, R104). -/

open Sys2Proof Sys2Proof.Machine

namespace Sys2Proof.Machine

theorem clamp_of_lt {t : Int} (h : t < 3) : clamp t = 3 := if_pos h

theorem clamp_of_gt {t : Int} (h : 11 < t) : clamp t = 11 :=
  (if_neg (show ¬ t < 3 by omega)).trans (if_pos h)

theorem clamp_of_mem {t : Int} (h3 : 3 ≤ t) (h11 : t ≤ 11) : clamp t = t :=
  (if_neg (show ¬ t < 3 by omega)).trans (if_neg (show ¬ 11 < t by omega))

theorem clamp_bounds (t : Int) : 3 ≤ clamp t ∧ clamp t ≤ 11 := by
  have hcount : 3 ≤ (clamp t).toNat ∧ (clamp t).toNat ≤ 11 := runLength_bounds t
  omega

theorem one_le_runLength (t : Int) : 1 ≤ runLength t :=
  le_trans (by decide) (runLength_bounds t).1

theorem outOfRangeRun_mem_conditions_run (t : Int) (s : State) :
    Condition.outOfRangeRun ∈ conditions (.run t) s ↔ t < 3 ∨ 11 < t := by
  have hceiling : Condition.outOfRangeRun ∉
      raiseIf (discardsBit s.wp (runLength t)) .bufferCeiling := by simp
  rw [conditions, runConditions, List.mem_append, or_iff_left hceiling, mem_raiseIf,
    and_iff_left rfl, outOfRange_iff]

/-- `emitRun_bit` for a `RUN`, in the terms of R104: the 1 is stored when at least one bit fits. -/
theorem runState_bit (t : Int) {s : State} (h : s.cb.wf = true) (n : Nat) :
    (runState t s).cb.bit n =
      if n = s.wp ∧ 1 ≤ min (runLength t) (Config.bufBits - s.wp) then true
      else if s.wp < n ∧ n < s.wp + min (runLength t) (Config.bufBits - s.wp) then false
      else s.cb.bit n := by
  have hc := one_le_runLength t
  have hfits : 1 ≤ min (runLength t) (Config.bufBits - s.wp) ↔ s.wp < Config.bufBits := by omega
  simp only [runState_cb, emitRun_bit hc h, hfits]

end Sys2Proof.Machine

/-- Settles O19: `RUN` completes with `runState`, whose cursor, flag and buffer the laws of
`emitRun` give, and whose other fields `runState_frame` keeps. -/
theorem runExpandsAtTheCursor : Obligations.RunExpandsAtTheCursor := by
  intro t s hwf
  have hc := one_le_runLength t
  refine ⟨runState t s, exec_run t s, ⟨?wp, ?truncW, ?haveRun, ?event, ?canonical, ?bits⟩,
    runState_frame t s⟩
  case wp => exact emitRun_wp hc s
  case truncW => exact emitRun_truncW hc s
  case haveRun => exact runState_haveRun t s
  case event => exact runState_event t s
  case canonical => exact emitRun_wf (runLength t) hwf
  case bits => exact runState_bit t hwf

/-- Settles O6: the three ranges of `clamp`, its bounds, and the range test of `RUN`. -/
theorem clampLimitsARunLength : Obligations.ClampLimitsARunLength := by
  intro t
  obtain ⟨hlow, hhigh⟩ := clamp_bounds t
  exact ⟨clamp_of_lt, clamp_of_gt, clamp_of_mem, hlow, hhigh, outOfRangeRun_mem_conditions_run t⟩

end


section
/-! Bit-field extraction on the two sides of its domain (41_extract.md R120), and the fixed-offset symbol reads inside it
(R125). -/

open Sys2Proof Sys2Proof.Machine

namespace Sys2Proof.Machine

theorem extract_of_mem_domain {buf : List Bool} {off w : Nat} (hw : w ≤ Config.extMaxW)
    (hoff : off + w ≤ buf.length) :
    extract buf off w = .ok (field (fun n => buf.getD n false) off w) :=
  if_pos ⟨hw, hoff⟩

theorem extract_outside_domain {buf : List Bool} {off w : Nat}
    (h : Config.extMaxW < w ∨ buf.length < off + w) :
    extract buf off w = .error (.extractOutOfDomain off w) :=
  if_neg fun ⟨hw, hoff⟩ => h.elim hw.not_gt hoff.not_gt

theorem memRead_of_mem_domain (m : Memory) {off w : Nat} (hw : w ≤ Config.extMaxW)
    (hoff : off + w ≤ Config.bufBits) : memRead m off w = .ok (field m.bit off w) :=
  if_pos ⟨hw, hoff⟩

/-- The last of the 33 symbols occupies stream indices 571 to 584 of the 592. -/
theorem symbol_in_buffer {i : Nat} (hi : i < 33) :
    Config.firstOff + Config.stride * i + Config.symBits ≤ Config.bufBits := by
  unfold Config.firstOff Config.stride Config.symBits Config.bufBits
  omega

/-- Each of the 33 reads is inside the domain of `MemRead` and has the symbol as its value. -/
theorem memRead_symbol (m : Memory) {i : Nat} (hi : i < 33) :
    memRead m (Config.firstOff + Config.stride * i) Config.symBits =
      .ok (symbolOf m.bit i).toNat := by
  have hwidth : Config.symBits ≤ Config.extMaxW := by decide
  rw [memRead_of_mem_domain m hwidth (symbol_in_buffer hi), symbolOf_toNat]

end Sys2Proof.Machine

/-- Settles O13: in the domain `extract` is a field, the sum of its weighted bits; outside it is refused. -/
theorem extractIsTheBitSum : Obligations.ExtractIsTheBitSum := by
  intro buf off w
  refine ⟨fun hw hoff => ?_, extract_outside_domain⟩
  rw [← field_eq_sum (fun n => buf.getD n false) off w]
  exact ⟨extract_of_mem_domain hw hoff, field_lt _ off w⟩

/-- Settles O15: the 33 reads are inside the domain, `MemRead` is `extract` on `CB`, and a symbol's bits stand most
significant first. -/
theorem fixedOffsetReadsGiveTheSymbols : Obligations.FixedOffsetReadsGiveTheSymbols := by
  intro m i hi
  have hread := memRead_symbol m hi
  refine ⟨hread, ?_, fun j hj => symbolOf_getLsbD m.bit i j (by omega)⟩
  exact (memRead_eq_extract m _ _).symm.trans hread

end

section
/-! The table search (42_translate.md R140, R141): the first match wins, in ascending source value. -/

open Sys2Proof Sys2Proof.Machine

namespace Sys2Proof.Machine

theorem tableRead_eq_getElem (T : Vector Sym 256) (v : Byte) :
    tableRead T v = T.toList[v.toNat]'(by simp [v.isLt]) := rfl

/-- `translate` finds the least source value with the code. -/
theorem translate_eq_some_iff {T : Vector Sym 256} {c : Sym} {v : Byte} :
    translate T c = some v ↔
      tableRead T v = c ∧ ∀ u : Byte, u.toNat < v.toNat → tableRead T u ≠ c := by
  rw [translate, searchFrom_eq_some]
  constructor
  · rintro ⟨k, hk, hcode, hv, hlower⟩
    have hvk : v.toNat = k := by
      rw [Vector.length_toList] at hk
      rw [hv, BitVec.toNat_ofNat, Nat.zero_add, Nat.mod_eq_of_lt hk]
    subst hvk
    simp only [tableRead_eq_getElem]
    exact ⟨hcode, fun u hu => hlower u.toNat hu⟩
  · rintro ⟨hcode, hlower⟩
    rw [tableRead_eq_getElem] at hcode
    refine ⟨v.toNat, by simp [v.isLt], hcode, by simp, fun j hj => ?_⟩
    have hj256 : j < 256 := hj.trans v.isLt
    rw [← tableRead_ofNat T hj256]
    exact hlower _ (by rwa [BitVec.toNat_ofNat, Nat.mod_eq_of_lt hj256])

/-- `translate` finds nothing exactly when no word of the table is the code. -/
theorem translate_eq_none_iff {T : Vector Sym 256} {c : Sym} :
    translate T c = none ↔ ∀ u : Byte, tableRead T u ≠ c := by
  have hmem : (∀ x ∈ T.toList, x ≠ c) ↔ c ∉ T.toList := List.forall_mem_ne'
  rw [translate, searchFrom_eq_none, hmem, mem_table_iff, not_exists]

end Sys2Proof.Machine

/-- Settles O16: the linear search stops at the least source value with the code, and runs through the table without one. -/
theorem translateReturnsTheFirstMatch : Obligations.TranslateReturnsTheFirstMatch :=
  fun _ _ => ⟨fun _ => translate_eq_some_iff, translate_eq_none_iff⟩

end

section
/-! The decode of slot 0 (42_translate.md R144, R145): what an answer of `subdec` writes and which condition it raises. -/

open Sys2Proof Sys2Proof.Machine

namespace Sys2Proof.Machine

/-- `SUBCODE` writes the four registers `subdec` answers and raises slot 0's failure with the flag it sets. -/
theorem exec_subcode_of_subdec {c : Sym} {s : State} {r : Slot0Result} (h : subdec s.table c = r) :
    exec (.subcode c) s = .next (writeSlot0 r s) ∧
      conditions (.subcode c) s = raiseIf r.subErr (.translationFailure 0) := by
  subst h
  exact ⟨exec_subcode c s, rfl⟩

theorem decodeSlot0_s0 : decodeSlot0 Config.s0 = .sync0 := if_pos rfl

theorem decodeSlot0_s1 : decodeSlot0 Config.s1 = .sync1 := by
  have hne : Config.s1 ≠ Config.s0 := by decide
  rw [decodeSlot0, if_neg hne, if_pos rfl]

end Sys2Proof.Machine

/-- Settles O25: each kind of code has its answer of `subdec`, and `SUBCODE` writes and reports that answer. -/
theorem subcodeDecodesSlotZero : Obligations.SubcodeDecodesSlotZero := by
  intro c s
  refine ⟨?sync0, ?sync1, fun h0 h1 => ⟨fun v hfound => ?found, fun hnone => ?notFound⟩⟩
  case sync0 =>
    rintro rfl
    exact exec_subcode_of_subdec (subdec_s0 s.table)
  case sync1 =>
    rintro rfl
    exact exec_subcode_of_subdec (subdec_s1 s.table)
  case found => exact exec_subcode_of_subdec (subdec_found h0 h1 hfound)
  case notFound => exact exec_subcode_of_subdec (subdec_notFound h0 h1 hnone)

/-- Settles O24: `decodeSlot0` tests S0 first, then S1; each sync instruction writes its fixed result and raises nothing. -/
theorem syncCodesSetTheirFlag : Obligations.SyncCodesSetTheirFlag :=
  ⟨decodeSlot0_s0, decodeSlot0_s1, fun s => ⟨exec_sync0 s, exec_sync1 s, rfl, rfl⟩⟩

end

section
/-! The decode of a data slot (42_translate.md R147, R148): it writes its own lane, from its own symbol. -/

open Sys2Proof Sys2Proof.Machine

namespace Sys2Proof.Machine

theorem writeLane_same (lane : Fin 32) (r : DataResult) (s : State) :
    (writeLane lane r s).data[lane] = r.value ∧ (writeLane lane r s).err[lane] = r.err := by
  simp

theorem writeLane_other {lane other : Fin 32} (h : other ≠ lane) (r : DataResult) (s : State) :
    (writeLane lane r s).data[other] = s.data[other] ∧
      (writeLane lane r s).err[other] = s.err[other] := by
  have hval : lane.val ≠ other.val := fun heq => h (Fin.ext heq.symm)
  simp [hval]

/-- `DATA` leaves the answer of `datadec` in its lane and raises the slot's failure with the flag it sets. -/
theorem data_lane_of_datadec {lane : Fin 32} {c : Sym} {s : State} {r : DataResult}
    (h : datadec s.table c = r) :
    (writeLane lane (datadec s.table c) s).data[lane] = r.value ∧
      (writeLane lane (datadec s.table c) s).err[lane] = r.err ∧
      conditions (.data lane c) s = raiseIf r.err (.translationFailure lane.succ) := by
  subst h
  obtain ⟨hdata, herr⟩ := writeLane_same lane (datadec s.table c) s
  exact ⟨hdata, herr, rfl⟩

/-- A lane of a produced frame is the decode of its own symbol. -/
theorem endFrame_lane (s : State) (lane : Fin 32) :
    (endFrame s).data[lane] = (datadec s.table (stateSymbol s (lane.val + 1))).value ∧
      (endFrame s).err[lane] = (datadec s.table (stateSymbol s (lane.val + 1))).err :=
  ⟨frameOf_data _ _ lane, frameOf_err _ _ lane⟩

theorem eq_endFrame_of_exec_endCmd {s u : State} (hhave : s.haveRun = true)
    (h : exec .endCmd s = .next u) : u = endFrame s := by
  rw [exec_endCmd, execEnd_frame hhave] at h
  cases h
  rfl

end Sys2Proof.Machine

/-- Settles O26: `DATA` is one write of its lane, of what `datadec` answers. -/
theorem dataDecodesItsLaneOnly : Obligations.DataDecodesItsLaneOnly := by
  intro lane c s
  refine ⟨_, exec_data lane c s, fun v hfound => ?found, fun hnone => ?notFound,
    fun other hother => writeLane_other hother _ s, rfl⟩
  case found => exact data_lane_of_datadec (datadec_found hfound)
  case notFound => exact data_lane_of_datadec (datadec_notFound hnone)

/-- Settles O33: both frames decode the lane's symbol with the one table, and the symbol is its 14 bits. -/
theorem lanesAreIndependent : Obligations.LanesAreIndependent := by
  intro lane s s' u u' hhave hhave' htable hbits hu hu'
  have hsym : stateSymbol s (lane.val + 1) = stateSymbol s' (lane.val + 1) := symbolOf_congr hbits
  obtain ⟨hdata, herr⟩ := endFrame_lane s lane
  obtain ⟨hdata', herr'⟩ := endFrame_lane s' lane
  rw [eq_endFrame_of_exec_endCmd hhave hu, eq_endFrame_of_exec_endCmd hhave' hu',
    hdata, herr, hdata', herr', htable, hsym]
  exact ⟨rfl, rfl⟩

end

section
/-! The command `END` (43_frame_decode.md R162 to R166): what it signals without input, and what it publishes and clears with input. -/

open Sys2Proof Sys2Proof.Machine

namespace Sys2Proof.Machine

theorem conditions_endCmd_empty {s : State} (h : s.haveRun = false) :
    conditions .endCmd s = [.missingInput] := by
  rw [conditions, endConditions, h]
  rfl

/-- A symbol that is no sync code leaves both sync flags clear, found or not. -/
theorem subdec_sync_clear (T : Vector Sym 256) {c : Sym} (h0 : c ≠ Config.s0) (h1 : c ≠ Config.s1) :
    (subdec T c).sync0 = false ∧ (subdec T c).sync1 = false := by
  cases h : translate T c with
  | some v =>
    rw [subdec_found h0 h1 h]
    exact ⟨rfl, rfl⟩
  | none =>
    rw [subdec_notFound h0 h1 h]
    exact ⟨rfl, rfl⟩

/-- The slot-0 registers of a produced frame are the answer of `subdec` on symbol 0. -/
theorem endFrame_slot0_of_subdec {s : State} {r : Slot0Result}
    (h : subdec s.table (symbolOf s.cb.bit 0) = r) :
    (endFrame s).sync0 = r.sync0 ∧ (endFrame s).sync1 = r.sync1 ∧
      (endFrame s).sub = r.sub ∧ (endFrame s).subErr = r.subErr := by
  subst h
  exact ⟨rfl, rfl, rfl, rfl⟩

/-- A lane of a produced frame is the answer of `datadec` on its symbol. -/
theorem endFrame_lane_of_datadec {s : State} {lane : Fin 32} {r : DataResult}
    (h : datadec s.table (symbolOf s.cb.bit (lane.val + 1)) = r) :
    (endFrame s).data[lane] = r.value ∧ (endFrame s).err[lane] = r.err := by
  subst h
  exact endFrame_lane s lane

end Sys2Proof.Machine

/-- Settles O27: without input `END` is `endEmpty`, the two writes of R166, and raises `MissingInput` alone. -/
theorem endWithoutInputOnlySignals : Obligations.EndWithoutInputOnlySignals :=
  fun _ hempty => ⟨(exec_endCmd _).trans (execEnd_empty hempty), conditions_endCmd_empty hempty⟩

/-- Settles O28: with input `END` is `endFrame`; each kind of symbol has its answer of `datadec` or `subdec`, which the
registers hold, and the other fields are those of `publish` and `clearFill`. -/
theorem endPublishesTheFrameAndClears : Obligations.EndPublishesTheFrameAndClears := by
  intro s hhave
  refine ⟨endFrame s, (exec_endCmd s).trans (execEnd_frame hhave),
    fun lane => ⟨fun v hfound => ?laneFound, fun hnone => ?laneNotFound⟩,
    fun hs0 => ?sync0, fun hs1 => ?sync1, fun h0 h1 => ?subcode,
    rfl, rfl, rfl, endFrame_event s, Memory.bit_nil, rfl, rfl, rfl, rfl, endFrame_table s, rfl⟩
  case laneFound => exact endFrame_lane_of_datadec (datadec_found hfound)
  case laneNotFound => exact endFrame_lane_of_datadec (datadec_notFound hnone)
  case sync0 => exact endFrame_slot0_of_subdec ((congrArg _ hs0).trans (subdec_s0 s.table))
  case sync1 => exact endFrame_slot0_of_subdec ((congrArg _ hs1).trans (subdec_s1 s.table))
  case subcode =>
    obtain ⟨hsync0, hsync1⟩ := subdec_sync_clear s.table h0 h1
    refine ⟨hsync0, hsync1, fun v hfound => ?found, fun hnone => ?notFound⟩
    case found =>
      obtain ⟨-, -, hsub⟩ := endFrame_slot0_of_subdec (subdec_found h0 h1 hfound)
      exact hsub
    case notFound =>
      obtain ⟨-, -, hsub⟩ := endFrame_slot0_of_subdec (subdec_notFound h0 h1 hnone)
      exact hsub

end

section
/-! The pure function `decode` (43_frame_decode.md R160): its symbols are the fixed-offset extractions from the expansion. -/

open Sys2Proof Sys2Proof.Machine

namespace Sys2Proof.Machine

/-- From a buffer of 592 bits `extract` reads each of the 33 symbols. -/
theorem extract_symbol {buf : List Bool} (hlen : buf.length = Config.bufBits) {i : Nat} (hi : i < 33) :
    extract buf (Config.firstOff + Config.stride * i) Config.symBits =
      .ok (symbolOf (fun n => buf.getD n false) i).toNat := by
  have hwidth : Config.symBits ≤ Config.extMaxW := by decide
  rw [extract_of_mem_domain hwidth (hlen ▸ symbol_in_buffer hi), symbolOf_toNat]

/-- A lane of `frameOf` is the decode of its symbol, both fields at once. -/
theorem frameOf_lane (T : Vector Sym 256) (sym : Nat → Sym) (lane : Fin 32) :
    (⟨(frameOf T sym).data[lane], (frameOf T sym).err[lane]⟩ : DataResult) =
      datadec T (sym (lane.val + 1)) := by
  rw [frameOf_data, frameOf_err]

end Sys2Proof.Machine

/-- Settles O35: `decode` of a non-empty sequence is `frameOf` on the symbols of the expansion, and `extract` gives these symbols. -/
theorem decodeChainsTheThreeStages : Obligations.DecodeChainsTheThreeStages := by
  intro T ts
  refine ⟨fun hnil => hnil ▸ decodeRuns_nil T, fun hne => ?_⟩
  have hsym {i : Nat} (hi : i < 33) := extract_symbol (expand_length ts) hi
  refine ⟨_, _, decodeRuns_of_ne_nil T hne, rfl, ⟨_, hsym (i := 0) (by decide), rfl⟩, fun lane => ?_⟩
  exact ⟨_, hsym (by omega), frameOf_lane T _ lane⟩

end

section
/-! An out-of-range `RUN` (60_exceptions.md R182): `RUN` reads its run length through `clamp` only, and `clamp` is idempotent. -/

open Sys2Proof Sys2Proof.Machine

namespace Sys2Proof.Machine

@[simp] theorem clamp_clamp (t : Int) : clamp (clamp t) = clamp t := by
  obtain ⟨hlow, hhigh⟩ := clamp_bounds t
  exact clamp_of_mem hlow hhigh

@[simp] theorem runLength_clamp (t : Int) : runLength (clamp t) = runLength t :=
  congrArg Int.toNat (clamp_clamp t)

theorem runState_clamp (t : Int) (s : State) : runState (clamp t) s = runState t s := by
  rw [runState, runLength_clamp, runState]

end Sys2Proof.Machine

/-- Settles O21: `RUN t` completes with `runState t s`, which is the state of the clamped run; the condition's range test is
`outOfRangeRun_mem_conditions_run`. -/
theorem outOfRangeRunActsAsItsClampedValue : Obligations.OutOfRangeRunActsAsItsClampedValue := by
  intro t s
  refine ⟨?_, outOfRangeRun_mem_conditions_run t s⟩
  rw [exec_run, exec_run, runState_clamp]

end

section
/-! The full buffer (70_reset_and_hazards.md R222): at `WP = 592` a bit is lost, and the only trace of it is `TRUNC_W`. -/

open Sys2Proof Sys2Proof.Machine

namespace Sys2Proof.Machine

theorem emitBit_at_ceiling (b : Bool) {s : State} (h : s.wp = Config.bufBits) :
    emitBit b s = { s with truncW := true } :=
  if_neg h.not_lt

/-- Once a bit has been lost, losing more of them changes nothing. -/
theorem emitZeros_at_ceiling (n : Nat) {s : State} (h : s.wp = Config.bufBits) (ht : s.truncW = true) :
    emitZeros n s = s := by
  induction n with
  | zero => rfl
  | succ n ih =>
    have hlost : emitBit false s = s := by rw [emitBit_at_ceiling false h, ← ht]
    rw [emitZeros, hlost, ih]

theorem emitRun_at_ceiling (c : Nat) {s : State} (h : s.wp = Config.bufBits) :
    emitRun c s = { s with truncW := true } := by
  rw [emitRun, emitBit_at_ceiling true h]
  exact emitZeros_at_ceiling (c - 1) h rfl

theorem runState_at_ceiling (t : Int) {s : State} (h : s.wp = Config.bufBits) :
    runState t s = { s with truncW := true, haveRun := true, event := none } := by
  rw [runState, emitRun_at_ceiling _ h]

/-- A producing `END` reads `CB` and `TABLE`, and of the rest of the fill state only `TRUNC_W`, into `TRUNC`. -/
theorem endFrame_of_lostRun (s : State) :
    endFrame { s with truncW := true, haveRun := true, event := none } =
      { endFrame s with trunc := true } := rfl

end Sys2Proof.Machine

/-- Settles O20: at the ceiling `RUN` only sets `TRUNC_W` and `HAVE`, and the frame that `END` then publishes and clears
differs from the one without the `RUN` in `TRUNC` alone. -/
theorem runAtTheCeilingIsDiscarded : Obligations.RunAtTheCeilingIsDiscarded := by
  intro t s hfull
  have hend : exec .endCmd { s with truncW := true, haveRun := true, event := none } =
      .next { endFrame s with trunc := true } := by
    rw [exec_endCmd, execEnd_frame rfl, endFrame_of_lostRun]
  refine ⟨runState t s, exec_run t s, runState_at_ceiling t hfull, { endFrame s with trunc := true },
    ?endAfterRun, rfl, rfl, Memory.bit_nil, rfl, rfl, fun v' hhave hv' => ?endWithoutRun⟩
  case endAfterRun => rw [runState_at_ceiling t hfull, hend]
  case endWithoutRun => rw [eq_endFrame_of_exec_endCmd hhave hv']

end

section
/-! Encoding and decoding (30_encoding.md sections 2, 6, 9): a word that fits its format is a machine word of its width, and each
format's decoder and encoder are inverse on such words. -/

open Sys2Proof Sys2Proof.Machine

namespace Sys2Proof

theorem decode_cmd_toNat (w : CmdWord) : decode .cmd w.toNat = .ok (decodeCommand w) := by
  rw [decode_cmd w.isLt, BitVec.ofNat_toNat, BitVec.setWidth_eq]

theorem decode_sym0_toNat (c : Sym) : decode .sym0 c.toNat = .ok (decodeSlot0 c) := by
  rw [decode_sym0 c.isLt, BitVec.ofNat_toNat, BitVec.setWidth_eq]

theorem decode_symD_toNat (lane : Fin 32) (c : Sym) :
    decode (.symD lane) c.toNat = .ok (decodeDataSlot lane c) := by
  rw [decode_symD lane c.isLt, BitVec.ofNat_toNat, BitVec.setWidth_eq]

/-- What the decoder accepts fits the format. -/
theorem word_fits_of_decode {f : Format} {w : Nat} {i : Instr} (h : decode f w = .ok i) :
    w < 2 ^ f.width := by
  by_contra hwide
  rw [decode_tooWide (Nat.not_lt.1 hwide)] at h
  cases h

theorem exists_bitVec_toNat {n w : Nat} (h : w < 2 ^ n) : ∃ x : BitVec n, w = x.toNat :=
  ⟨BitVec.ofNat n w, by rw [BitVec.toNat_ofNat, Nat.mod_eq_of_lt h]⟩

/-- The well-formed operands of `RUN` are the values of the port field. -/
theorem runOperandFits_iff (t : Int) : runOperandFits t = true ↔ ∃ b : Byte, t = tval b := by
  rw [runOperandFits, Bool.and_eq_true, decide_eq_true_iff, decide_eq_true_iff]
  constructor
  · rintro ⟨hlow, hhigh⟩
    obtain ⟨b, hb⟩ := exists_bitVec_toNat (n := 8) (w := t.toNat) (by omega)
    exact ⟨b, by rw [tval, ← hb]; omega⟩
  · rintro ⟨b, rfl⟩
    have hb : b.toNat < 256 := b.isLt
    exact ⟨Int.natCast_nonneg _, by rw [tval]; omega⟩

theorem encode_run_tval (b : Byte) : encode (.run (tval b)) = (.cmd, (runWord b).toNat) := by
  rw [encode, tval, Int.toNat_natCast, runWord, BitVec.toNat_setWidth_of_le (by decide)]

theorem isNoSyncCode_iff (c : Sym) : isNoSyncCode c = true ↔ c ≠ Config.s0 ∧ c ≠ Config.s1 := by
  rw [isNoSyncCode, Bool.and_eq_true, decide_eq_true_iff, decide_eq_true_iff]

theorem decodeSlot0_of_noSync {c : Sym} (h0 : c ≠ Config.s0) (h1 : c ≠ Config.s1) :
    decodeSlot0 c = .subcode c := by
  rw [decodeSlot0, if_neg h0, if_neg h1]

/-- Every slot-0 symbol is one of the two reserved codes or a `SUBCODE`. -/
theorem decodeSlot0_cases (c : Sym) :
    (c = Config.s0 ∧ decodeSlot0 c = .sync0) ∨ (c = Config.s1 ∧ decodeSlot0 c = .sync1) ∨
      (c ≠ Config.s0 ∧ c ≠ Config.s1 ∧ decodeSlot0 c = .subcode c) := by
  by_cases h0 : c = Config.s0
  · exact .inl ⟨h0, h0 ▸ decodeSlot0_s0⟩
  by_cases h1 : c = Config.s1
  · exact .inr (.inl ⟨h1, h1 ▸ decodeSlot0_s1⟩)
  exact .inr (.inr ⟨h0, h1, decodeSlot0_of_noSync h0 h1⟩)

/-- A command word whose bit 8 is clear is its own low byte. -/
theorem toNat_setWidth_of_bit8_clear {w : CmdWord} (h : w.getLsbD 8 = false) :
    (w.setWidth 8).toNat = w.toNat := by
  have hlow : w.toNat < 2 ^ 8 := by
    have htop := w.isLt
    by_contra hge
    have hdiv : w.toNat / 2 ^ 8 = 1 := by omega
    have hbit : w.toNat.testBit 8 = true := by rw [Nat.testBit_eq_decide_div_mod_eq, hdiv]; rfl
    rw [BitVec.getLsbD, hbit] at h
    cases h
  rw [BitVec.toNat_setWidth, Nat.mod_eq_of_lt hlow]

theorem toNat_ge_of_bit8_set {w : CmdWord} (h : w.getLsbD 8 = true) : 0x100 ≤ w.toNat :=
  Nat.ge_two_pow_of_testBit h

end Sys2Proof

/-- Settles O3: the encoded word of each instruction is a machine word of its format, which that format's decoder takes back. -/
theorem decodeAfterEncode : Obligations.DecodeAfterEncode := by
  intro i hwf
  cases i with
  | run t =>
    obtain ⟨b, rfl⟩ := (runOperandFits_iff t).1 hwf
    rw [encode_run_tval, decode_cmd_toNat, decodeCommand_runWord]
  | endCmd => exact decode_cmd_toNat endWord
  | sync0 => exact (decode_sym0_toNat Config.s0).trans (congrArg _ decodeSlot0_s0)
  | sync1 => exact (decode_sym0_toNat Config.s1).trans (congrArg _ decodeSlot0_s1)
  | subcode c =>
    obtain ⟨h0, h1⟩ := (isNoSyncCode_iff c).1 hwf
    exact (decode_sym0_toNat c).trans (congrArg _ (decodeSlot0_of_noSync h0 h1))
  | data lane c => exact decode_symD_toNat lane c

/-- Settles O4: an accepted word fits its format; a command word splits on bit 8, a slot-0 word on the reserved codes. -/
theorem encodeAfterDecode : Obligations.EncodeAfterDecode := by
  intro f w i h
  obtain ⟨x, rfl⟩ := exists_bitVec_toNat (word_fits_of_decode h)
  cases f with
  | cmd =>
    cases (decode_cmd_toNat x).symm.trans h
    cases hbit : x.getLsbD 8 with
    | false =>
      rw [decodeCommand_of_bit8_clear hbit]
      exact ⟨(runOperandFits_iff _).2 ⟨_, rfl⟩, rfl, .inl (toNat_setWidth_of_bit8_clear hbit)⟩
    | true =>
      rw [decodeCommand_of_bit8_set hbit]
      exact ⟨rfl, rfl, .inr ⟨rfl, toNat_ge_of_bit8_set hbit, Nat.le_of_lt_succ x.isLt⟩⟩
  | sym0 =>
    cases (decode_sym0_toNat x).symm.trans h
    rcases decodeSlot0_cases x with ⟨hx, hd⟩ | ⟨hx, hd⟩ | ⟨h0, h1, hd⟩
    · rw [hd, hx]
      exact ⟨rfl, rfl, .inl rfl⟩
    · rw [hd, hx]
      exact ⟨rfl, rfl, .inl rfl⟩
    · rw [hd]
      exact ⟨(isNoSyncCode_iff x).2 ⟨h0, h1⟩, rfl, .inl rfl⟩
  | symD lane =>
    cases (decode_symD_toNat lane x).symm.trans h
    exact ⟨rfl, rfl, .inl rfl⟩

end

section
/-! The opcode map in priority order (30_encoding.md R84): which row is the first to take a word. -/

open Sys2Proof

namespace Sys2Proof

/-- The mask 0x100 of the command rows keeps bit 8 alone. -/
theorem and_mask_command (w : CmdWord) : w.toNat &&& 0x100 = (w.getLsbD 8).toNat * 0x100 :=
  Nat.and_two_pow w.toNat 8

/-- The mask 0x3FFF of the sync rows keeps the whole symbol. -/
theorem and_mask_symbol (c : Sym) : c.toNat &&& 0x3FFF = c.toNat :=
  Nat.and_two_pow_sub_one_of_lt_two_pow (n := 14) c.isLt

theorem firstRow_command_run {w : CmdWord} (h : w.getLsbD 8 = false) :
    firstRow .CMD w.toNat = some ⟨"RUN", .CMD, 0x000, 0x100, 0⟩ := by
  have hmask : w.toNat &&& 0x100 = 0 := by rw [and_mask_command, h]; rfl
  simp [firstRow, opcodeRows, OpRow.takes, hmask]

theorem firstRow_command_end {w : CmdWord} (h : w.getLsbD 8 = true) :
    firstRow .CMD w.toNat = some ⟨"END", .CMD, 0x100, 0x100, 0⟩ := by
  have hmask : w.toNat &&& 0x100 = 0x100 := by rw [and_mask_command, h]; rfl
  simp [firstRow, opcodeRows, OpRow.takes, hmask]

theorem firstRow_s0 : firstRow .SYM0 Config.s0.toNat = some ⟨"SYNC0", .SYM0, 0x0801, 0x3FFF, 1⟩ := by
  decide

theorem firstRow_s1 : firstRow .SYM0 Config.s1.toNat = some ⟨"SYNC1", .SYM0, 0x0012, 0x3FFF, 2⟩ := by
  decide

theorem firstRow_subcode {c : Sym} (h0 : c ≠ Config.s0) (h1 : c ≠ Config.s1) :
    firstRow .SYM0 c.toNat = some ⟨"SUBCODE", .SYM0, 0x0000, 0x0000, 3⟩ := by
  have hs0 : c.toNat ≠ 0x0801 := fun h => h0 (BitVec.eq_of_toNat_eq h)
  have hs1 : c.toNat ≠ 0x0012 := fun h => h1 (BitVec.eq_of_toNat_eq h)
  simp [firstRow, opcodeRows, OpRow.takes, and_mask_symbol, hs0, hs1]

theorem firstRow_data (w : Nat) : firstRow .SYMD w = some ⟨"DATA", .SYMD, 0x0000, 0x0000, 1⟩ := by
  simp [firstRow, opcodeRows, OpRow.takes]

end Sys2Proof

/-- Settles O5: in each format the first row to take a word is the one the decoder branches to. -/
theorem decoderTakesTheFirstMatchingRow : Obligations.DecoderTakesTheFirstMatchingRow := by
  intro f w
  refine ⟨fun hfits => ?_, decode_tooWide⟩
  obtain ⟨x, rfl⟩ := exists_bitVec_toNat hfits
  cases f with
  | cmd =>
    refine ⟨decodeCommand x, ?_⟩
    cases hbit : x.getLsbD 8 with
    | false =>
      refine ⟨_, decode_cmd_toNat x, firstRow_command_run hbit, ?_⟩
      rw [decodeCommand_of_bit8_clear hbit]
      rfl
    | true =>
      refine ⟨_, decode_cmd_toNat x, firstRow_command_end hbit, ?_⟩
      rw [decodeCommand_of_bit8_set hbit]
      rfl
  | sym0 =>
    refine ⟨decodeSlot0 x, ?_⟩
    rcases decodeSlot0_cases x with ⟨hx, hd⟩ | ⟨hx, hd⟩ | ⟨h0, h1, hd⟩
    · exact ⟨_, decode_sym0_toNat x, hx ▸ firstRow_s0, by rw [hd]; rfl⟩
    · exact ⟨_, decode_sym0_toNat x, hx ▸ firstRow_s1, by rw [hd]; rfl⟩
    · exact ⟨_, decode_sym0_toNat x, firstRow_subcode h0 h1, by rw [hd]; rfl⟩
  | symD lane => exact ⟨_, _, decode_symD_toNat lane x, firstRow_data _, rfl⟩

/-- Settles O1: eight closed words. -/
theorem writtenOutWordsDecode : Obligations.WrittenOutWordsDecode := by
  unfold Obligations.WrittenOutWordsDecode
  decide

end

section
/-! The invariants (10_state.md sections 3 and 5) step by step: each speaks of a few fields only, a `RUN` keeps the fill
state's two, and a cleared fill state or an absent frame has its invariant outright. -/

open Sys2Proof Sys2Proof.Machine

namespace Sys2Proof.Machine

theorem FillInv.of_eq {s u : State} (h : FillInv s) (hcb : u.cb = s.cb) (hwp : u.wp = s.wp)
    (hhave : u.haveRun = s.haveRun) (htrunc : u.truncW = s.truncW) : FillInv u where
  cursor_le := hwp ▸ h.cursor_le
  unwritten_zero := by rw [hcb, hwp]; exact h.unwritten_zero
  empty_cursor := by rw [hhave, hwp]; exact h.empty_cursor
  empty_trunc := by rw [hhave, htrunc]; exact h.empty_trunc
  empty_buffer := by rw [hhave, hcb]; exact h.empty_buffer
  trunc_full := by rw [htrunc, hwp]; exact h.trunc_full

theorem HaveInv.of_eq {s u : State} (h : HaveInv s) (hcb : u.cb = s.cb) (hwp : u.wp = s.wp)
    (hhave : u.haveRun = s.haveRun) : HaveInv u where
  have_iff := by rw [hhave, hwp]; exact h.have_iff
  first_bit := by rw [hhave, hcb]; exact h.first_bit

theorem HeldFrameInv.of_eq {s u : State} (h : HeldFrameInv s) (hfv : u.fv = s.fv) (hdata : u.data = s.data)
    (herr : u.err = s.err) (hsub : u.sub = s.sub) (h0 : u.sync0 = s.sync0) (h1 : u.sync1 = s.sync1)
    (hsubErr : u.subErr = s.subErr) : HeldFrameInv u where
  one_sync := by rw [hfv, h0, h1]; exact h.one_sync
  sync_sub := by rw [hfv, h0, h1, hsub, hsubErr]; exact h.sync_sub
  err_data := by rw [hfv, hdata, herr]; exact h.err_data
  subErr_sub := by rw [hfv, hsub, hsubErr]; exact h.subErr_sub

/-- Without a frame nothing is claimed of the output registers. -/
theorem heldFrameInv_of_no_frame {s : State} (h : s.fv = false) : HeldFrameInv s := by
  have hno : s.fv ≠ true := by simp [h]
  exact ⟨fun hfv => absurd hfv hno, fun hfv => absurd hfv hno, fun hfv => absurd hfv hno,
    fun hfv => absurd hfv hno⟩

/-- The input queue is no part of the invariant. -/
theorem Inv.takeItem {s : State} (h : Inv s) (rest : List PortItem) : Inv (takeItem rest s) :=
  ⟨h.canonical, h.fill.of_eq rfl rfl rfl rfl, h.have_run.of_eq rfl rfl rfl,
    h.held.of_eq rfl rfl rfl rfl rfl rfl rfl⟩

/-- Nor is the event. -/
theorem Inv.noEvent {s : State} (h : Inv s) : Inv { s with event := none } :=
  ⟨h.canonical, h.fill.of_eq rfl rfl rfl rfl, h.have_run.of_eq rfl rfl rfl,
    h.held.of_eq rfl rfl rfl rfl rfl rfl rfl⟩

/-- Nor are the two fields an `END` without input writes. -/
theorem Inv.endEmpty {s : State} (h : Inv s) : Inv (endEmpty s) :=
  ⟨h.canonical, h.fill.of_eq rfl rfl rfl rfl, h.have_run.of_eq rfl rfl rfl,
    h.held.of_eq rfl rfl rfl rfl rfl rfl rfl⟩

theorem inv_of_cleared_of_held {s : State} (hcb : s.cb = []) (hwp : s.wp = 0) (hhave : s.haveRun = false)
    (htrunc : s.truncW = false) (hheld : HeldFrameInv s) : Inv s :=
  ⟨hcb ▸ Memory.wf_nil, fillInv_of_cleared hcb hwp htrunc, haveInv_of_cleared hwp hhave, hheld⟩

theorem inv_endFrame (s : State) : Inv (endFrame s) :=
  inv_of_cleared_of_held rfl rfl rfl rfl (heldFrameInv_endFrame s)

theorem inv_assertReset (s : State) : Inv (assertReset s) :=
  inv_of_cleared_of_held rfl rfl rfl rfl (heldFrameInv_of_no_frame rfl)

theorem inv_reset : Inv State.reset :=
  inv_of_cleared_of_held rfl rfl rfl rfl (heldFrameInv_of_no_frame rfl)

theorem runState_wp_eq (t : Int) (s : State) :
    (runState t s).wp = s.wp + min (runLength t) (Config.bufBits - s.wp) :=
  emitRun_wp (one_le_runLength t) s

theorem runState_truncW_eq (t : Int) (s : State) :
    (runState t s).truncW = (s.truncW || discardsBit s.wp (runLength t)) :=
  emitRun_truncW (one_le_runLength t) s

theorem runState_wf (t : Int) {s : State} (h : s.cb.wf = true) : (runState t s).cb.wf = true :=
  emitRun_wf (runLength t) h

theorem fillInv_runState (t : Int) {s : State} (hwf : s.cb.wf = true) (h : FillInv s) :
    FillInv (runState t s) := by
  have hle := h.cursor_le
  refine ⟨?cursor, fun n hn => ?unwritten, fun hempty => ?_, fun hempty => ?_, fun hempty => ?_,
    fun htrunc => ?full⟩
  case cursor =>
    rw [runState_wp_eq]
    omega
  case unwritten =>
    rw [runState_wp_eq] at hn
    have hc := one_le_runLength t
    rw [runState_bit t hwf, if_neg (by omega), if_neg (by omega)]
    exact h.unwritten_zero n (by omega)
  case full =>
    rw [runState_truncW_eq, Bool.or_eq_true] at htrunc
    rw [runState_wp_eq]
    rcases htrunc with hold | hnew
    · rw [h.trunc_full hold, Nat.sub_self, Nat.min_zero, Nat.add_zero]
    · have hpast := (discardsBit_iff (one_le_runLength t)).1 hnew
      have hB : Config.bufBits = 592 := rfl
      omega
  all_goals
    rw [runState_haveRun] at hempty
    cases hempty

theorem haveInv_runState (t : Int) {s : State} (hwf : s.cb.wf = true) (h : HaveInv s) :
    HaveInv (runState t s) := by
  have hc := one_le_runLength t
  have hB : 0 < Config.bufBits := by decide
  refine ⟨⟨fun _ => ?cursor, fun _ => runState_haveRun t s⟩, fun _ => ?firstBit⟩
  case cursor =>
    rw [runState_wp_eq]
    omega
  case firstBit =>
    rw [runState_bit t hwf]
    by_cases hstart : s.wp = 0
    · rw [if_pos (by omega)]
    · rw [if_neg (by omega), if_neg (by omega)]
      exact h.first_bit (h.have_iff.2 (Nat.pos_of_ne_zero hstart))

theorem Inv.runState {s : State} (h : Inv s) (t : Int) : Inv (runState t s) :=
  ⟨runState_wf t h.canonical, fillInv_runState t h.canonical h.fill, haveInv_runState t h.canonical h.have_run,
    h.held.of_eq (runState_fv ..) (runState_data ..) (runState_err ..) (runState_sub ..) (runState_sync0 ..)
      (runState_sync1 ..) (runState_subErr ..)⟩

end Sys2Proof.Machine

/-- Settles O43: each case of a step has its lemma. -/
theorem everyStepKeepsTheInvariant : Obligations.EveryStepKeepsTheInvariant := by
  intro s u hinv hstep
  rcases step_cases hstep with ⟨-, rfl⟩ | ⟨rest, -, rfl⟩ | ⟨w, rest, t, -, -, rfl⟩ |
    ⟨w, rest, -, -, -, rfl⟩ | ⟨w, rest, -, -, -, rfl⟩
  · exact hinv.noEvent
  · exact inv_assertReset _
  · exact (hinv.takeItem rest).runState t
  · exact inv_endFrame _
  · exact (hinv.takeItem rest).endEmpty

/-- Settles O44: after reset the fill state is cleared and no frame is held. -/
theorem resetHasTheInvariant : Obligations.ResetHasTheInvariant := inv_reset

end

section
/-! The fill state as an expansion (10_state.md section 3, 40_expand.md section 3). -/

open Sys2Proof Sys2Proof.Machine

namespace Sys2Proof.Machine

/-- `FilledBy` speaks of the four fields of the fill state only. -/
theorem FilledBy.of_eq {s u : State} {ts : List Int} (h : FilledBy s ts) (hcb : u.cb = s.cb) (hwp : u.wp = s.wp)
    (hhave : u.haveRun = s.haveRun) (htrunc : u.truncW = s.truncW) : FilledBy u ts := by
  unfold FilledBy
  rw [hcb, hwp, hhave, htrunc]
  exact h

theorem filledBy_nil_of_cleared {s : State} (hcb : s.cb = []) (hwp : s.wp = 0) (hhave : s.haveRun = false)
    (htrunc : s.truncW = false) : FilledBy s [] :=
  filledBy_nil_of_empty (fillInv_of_cleared hcb hwp htrunc) hhave

/-- Without input no run has been taken. -/
theorem FilledBy.eq_nil {s : State} {ts : List Int} (h : FilledBy s ts) (hhave : s.haveRun = false) : ts = [] := by
  obtain ⟨hiff, -⟩ := h
  by_contra hne
  rw [hiff.2 hne] at hhave
  cases hhave

/-- Either kind of `END` leaves an empty fill state. -/
theorem filledBy_nil_of_execEnd {s u : State} {ts : List Int} (h : FilledBy s ts) (hu : execEnd s = .next u) :
    FilledBy u [] := by
  cases hhave : s.haveRun with
  | true =>
    rw [execEnd_frame hhave] at hu
    cases hu
    exact filledBy_nil_of_cleared rfl rfl rfl rfl
  | false =>
    rw [execEnd_empty hhave] at hu
    cases hu
    exact h.eq_nil hhave ▸ h.of_eq rfl rfl rfl rfl

end Sys2Proof.Machine

/-- Settles O45: an idle step keeps the fill state, a `RUN` extends its expansion, reset and `END` empty it. -/
theorem fillStateIsAlwaysAnExpansion : Obligations.FillStateIsAlwaysAnExpansion := by
  intro s u ts hwf hfilled hstep
  have htaken (rest : List PortItem) : FilledBy (takeItem rest s) ts := hfilled.of_eq rfl rfl rfl rfl
  refine ⟨fun hidle => ?idle, fun rest hrst => ?rst, fun rest w t hcmd hrun => ?run, fun rest w hcmd hend => ?ends⟩
  case idle =>
    rw [step_idle hidle] at hstep
    cases hstep
    exact hfilled.of_eq rfl rfl rfl rfl
  case rst =>
    rw [step_rst hrst] at hstep
    cases hstep
    exact filledBy_nil_of_cleared rfl rfl rfl rfl
  case run =>
    rw [step_command hcmd, hrun, exec_run] at hstep
    cases hstep
    exact filledBy_runState (s := takeItem rest s) hwf (htaken rest) t
  case ends =>
    rw [step_command hcmd, hend, exec_endCmd] at hstep
    exact filledBy_nil_of_execEnd (htaken rest) hstep

end

section
/-! The closed form of `expand` (40_expand.md section 2) and the distances it gives (30_encoding.md section 3): the 1 bits stand at the
run starts, and neighbouring run starts are one clamped run length apart. -/

open Sys2Proof Sys2Proof.Machine

namespace Sys2Proof.Machine

/-- A stored 1 is the start of a run below the ceiling. -/
theorem expand_getD_iff (ts : List Int) (n : Nat) :
    (expand ts).bits.getD n false = true ↔
      n < Config.bufBits ∧ ∃ k, k < ts.length ∧ n = runStart ts k := by
  rw [expand_getD_stream, Bool.and_eq_true, decide_eq_true_iff, runStream_getD_iff]

theorem runStart_succ {ts : List Int} {k : Nat} (hk : k < ts.length) :
    runStart ts (k + 1) = runStart ts k + runLength ts[k] := by
  rw [runStart, List.take_succ_eq_append_getElem hk, List.map_append, List.sum_append, List.map_singleton,
    List.sum_singleton, runStart]

theorem runStart_mono (ts : List Int) : Monotone (runStart ts) := by
  refine monotone_nat_of_le_succ fun k => ?_
  by_cases hk : k < ts.length
  · rw [runStart_succ hk]
    exact Nat.le_add_right ..
  · have hpast : ts.length ≤ k := Nat.not_lt.1 hk
    rw [runStart, runStart, List.take_of_length_le hpast, List.take_of_length_le (Nat.le_succ_of_le hpast)]

end Sys2Proof.Machine

/-- Settles O8: cursor and flag follow from the number of offered bits, which is `P_m`; the stored 1 bits are the run starts. -/
theorem expandClosedForm : Obligations.ExpandClosedForm := by
  intro ts
  refine ⟨expand_length ts, ?wp, ?trunc, fun n hn => ?bits⟩
  case wp => rw [expand_wp_stream, runStream_length_eq, Config.bufBits]
  case trunc => rw [expand_trunc_stream, decide_eq_true_iff, runStream_length_eq, Config.bufBits]
  case bits => exact (expand_getD_iff ts n).trans (and_iff_right hn)

/-- Settles O9: the next run start after `a` is a stored 1, so it is `b`, and the run between them has 3 to 11 bits. -/
theorem onesAreThreeToElevenApart : Obligations.OnesAreThreeToElevenApart := by
  intro ts hne
  refine ⟨?first, fun a b hab ha hb hgap => ?distance⟩
  case first =>
    exact (expand_getD_iff ts 0).2 ⟨by decide, 0, List.length_pos_iff.2 hne, (runStart_zero ts).symm⟩
  case distance =>
    obtain ⟨-, j, hj, rfl⟩ := (expand_getD_iff ts a).1 ha
    obtain ⟨hbuf, k, hk, rfl⟩ := (expand_getD_iff ts b).1 hb
    have hjk : j < k := (runStart_mono ts).reflect_lt hab
    have hnext : runStart ts (j + 1) = runStart ts j + runLength ts[j] := runStart_succ hj
    have hbounds := runLength_bounds ts[j]
    have hle : runStart ts (j + 1) ≤ runStart ts k := runStart_mono ts hjk
    have hsame : runStart ts (j + 1) = runStart ts k := by
      by_contra hdiff
      have hone : (expand ts).bits.getD (runStart ts (j + 1)) false = true :=
        (expand_getD_iff ts _).2 ⟨by omega, j + 1, by omega, rfl⟩
      rw [hgap _ (by omega) (by omega)] at hone
      cases hone
    omega

end

section
/-! The buffer's write and its canonical form (20_memory.md R50, R53; log 8). -/

open Sys2Proof Sys2Proof.Machine

namespace Sys2Proof.Machine

theorem memWrite_inside (m : Memory) {n : Nat} (hn : n < Config.bufBits) (b : Bool) :
    memWrite m n b = .ok (m.setBit n b) :=
  if_pos hn

theorem memWrite_outside (m : Memory) {n : Nat} (hn : Config.bufBits ≤ n) (b : Bool) :
    memWrite m n b = .error (.bitOutsideBuffer n) :=
  if_neg (Nat.not_lt.2 hn)

/-- A bit write rewrites its own byte only. -/
theorem Memory.readByte_setBit {m : Memory} (h : m.wf = true) (n : Nat) (b : Bool) (k : Nat) :
    (m.setBit n b).readByte k =
      if k = n / 8 then byteWithBit (m.readByte (n / 8)) (7 - n % 8) b else m.readByte k :=
  Memory.readByte_writeByte h ..

end Sys2Proof.Machine

/-- Settles O10: inside the buffer the write is `setBit`, which changes one bit of one byte. -/
theorem bitWriteLandsMostSignificantFirst : Obligations.BitWriteLandsMostSignificantFirst := by
  intro m n b hwf
  refine ⟨fun hout => memWrite_outside m hout b, fun hin => ⟨_, memWrite_inside m hin b,
    Memory.setBit_wf hwf hin b, fun p hp => ?_, fun k hk => ?_, Memory.bit_setBit hwf n b⟩⟩
  · rw [Memory.readByte_setBit hwf, if_pos rfl, byteWithBit_getLsbD _ (by omega) hp]
  · rw [Memory.readByte_setBit hwf, if_neg hk]

/-- Settles O12: equal bits make equal bytes below 74, above them both read as unlisted, and canonical lists that read alike
are equal. -/
theorem equalBufferBitsAreEqualData : Obligations.EqualBufferBitsAreEqualData := by
  intro m m' hwf hwf' hbits
  refine Memory.eq_of_readByte_from hwf hwf' fun k => ?_
  by_cases hk : k < Config.bufBytes
  · have hk74 : k < 74 := hk
    exact Memory.readByte_of_bits k fun j hj => hbits _ (by omega)
  · rw [Memory.readByte_outside hwf (Nat.not_lt.1 hk), Memory.readByte_outside hwf' (Nat.not_lt.1 hk)]

end

section
/-! Laws of extraction (41_extract.md sections 1, 2) and of `clamp` (40_expand.md section 1). -/

open Sys2Proof Sys2Proof.Machine

namespace Sys2Proof.Machine

theorem field_of_zeros (off w : Nat) : field (fun _ => false) off w = 0 := by
  induction w with
  | zero => rfl
  | succ w ih => rw [field_succ, ih]; rfl

theorem symbolOf_of_zeros (i : Nat) : symbolOf (fun _ => false) i = 0x0000#14 := by
  rw [symbolOf, field_of_zeros]

theorem clamp_eq_min_max (t : Int) : clamp t = min 11 (max 3 t) := by
  rcases lt_or_ge t 3 with hlow | hlow
  · rw [clamp_of_lt hlow]; omega
  rcases lt_or_ge 11 t with hhigh | hhigh
  · rw [clamp_of_gt hhigh]; omega
  · rw [clamp_of_mem hlow hhigh]; omega

end Sys2Proof.Machine

/-- Settles O14: all three reads are in the domain, and the wide field is the two narrow ones side by side. -/
theorem extractOfAdjacentFieldsConcatenates : Obligations.ExtractOfAdjacentFieldsConcatenates := by
  intro buf off a b hwidth hlen
  have hmax : Config.extMaxW = 31 := rfl
  refine ⟨_, _, extract_of_mem_domain (by omega) (by omega), extract_of_mem_domain (by omega) (by omega), ?_⟩
  rw [extract_of_mem_domain (by omega) hlen, field_add]

/-- Settles O34: a symbol is made of its own 14 bits, and these are unwritten. -/
theorem symbolsBeyondTheCursorAreZero : Obligations.SymbolsBeyondTheCursorAreZero := by
  intro s i hfill hbeyond
  have hbits : ∀ j, j < 14 → s.cb.bit (27 + 17 * i + j) = false :=
    fun j _ => hfill.unwritten_zero _ (by omega)
  exact (symbolOf_congr hbits).trans (symbolOf_of_zeros i)

/-- Settles O7: `clamp` is `min 11 (max 3 t)`, from which its laws follow. -/
theorem clampIsIdempotentAndMonotone : Obligations.ClampIsIdempotentAndMonotone := by
  intro t u
  have ht := clamp_eq_min_max t
  have hu := clamp_eq_min_max u
  exact ⟨clamp_clamp t, by omega, by omega, ht⟩

end

section
/-! Consequences of the first-match rule (42_translate.md section 1): the code of a value, and the two precomputed inverse maps. -/

open Sys2Proof Sys2Proof.Machine

namespace Sys2Proof.Machine

/-- The code of a value is found, at that value or below. -/
theorem translate_tableRead (T : Vector Sym 256) (v : Byte) :
    ∃ u : Byte, translate T (tableRead T v) = some u ∧ tableRead T u = tableRead T v ∧ u.toNat ≤ v.toNat := by
  cases h : translate T (tableRead T v) with
  | none => exact absurd rfl (translate_eq_none_iff.1 h v)
  | some u =>
    obtain ⟨hcode, hleast⟩ := translate_eq_some_iff.1 h
    exact ⟨u, rfl, hcode, Nat.le_of_not_lt fun hlt => hleast v hlt rfl⟩

/-- The linear search over the words of consecutive source values is a search over these values. -/
theorem searchFrom_eq_find (g : Byte → Sym) (c : Sym) (n v : Nat) :
    searchFrom ((List.range' v n).map fun k => g (BitVec.ofNat 8 k)) c v =
      ((List.range' v n).map (BitVec.ofNat 8)).find? fun u => decide (g u = c) := by
  induction n generalizing v with
  | zero => rfl
  | succ n ih =>
    rw [List.range'_succ, List.map_cons, List.map_cons, searchFrom, List.find?_cons, ih]
    by_cases hv : g (BitVec.ofNat 8 v) = c
    · rw [if_pos hv, decide_eq_true hv]
    · rw [if_neg hv, decide_eq_false hv]

theorem table_eq_map_range (T : Vector Sym 256) :
    T.toList = (List.range' 0 256).map fun k => tableRead T (BitVec.ofNat 8 k) := by
  refine List.ext_getElem (by simp) fun k hk _ => ?_
  rw [Vector.length_toList] at hk
  rw [List.getElem_map, List.getElem_range', Nat.zero_add, Nat.one_mul, tableRead_ofNat T hk]

/-- `translate` finds the first of the 256 source values with the code. -/
theorem translate_eq_find (T : Vector Sym 256) (c : Sym) :
    translate T c = sourceValues.find? fun u => decide (tableRead T u = c) := by
  rw [translate, table_eq_map_range, searchFrom_eq_find, sourceValues, List.range_eq_range', Config.tableSize]

theorem inverseRead_cons (k : Sym) (v : Byte) (m : InverseMap) (c : Sym) :
    inverseRead ((k, v) :: m) c = if k = c then some v else inverseRead m c := rfl

/-- Removing the cells of another code leaves the cell of a code as it is. -/
theorem inverseRead_filter_ne {k c : Sym} (h : k ≠ c) (m : InverseMap) :
    inverseRead (m.filter fun cell => decide (cell.1 ≠ k)) c = inverseRead m c := by
  induction m with
  | nil => rfl
  | cons cell m ih =>
    obtain ⟨x, v⟩ := cell
    by_cases hx : x = k
    · subst hx
      rw [List.filter_cons_of_neg (by simp), ih, inverseRead_cons, if_neg h]
    · rw [List.filter_cons_of_pos (by simpa using hx), inverseRead_cons, inverseRead_cons, ih]

theorem inverseRead_overwrite (m : InverseMap) (k c : Sym) (v : Byte) :
    inverseRead (inverseOverwrite m k v) c = if k = c then some v else inverseRead m c := by
  rw [inverseOverwrite, inverseRead_cons]
  by_cases h : k = c
  · rw [if_pos h, if_pos h]
  · rw [if_neg h, if_neg h, inverseRead_filter_ne h]

/-- A write into empty cells only is seen where nothing was read before. -/
theorem inverseRead_writeIfEmpty (m : InverseMap) (k c : Sym) (v : Byte) :
    inverseRead (inverseWriteIfEmpty m k v) c = (inverseRead m c).or (if k = c then some v else none) := by
  unfold inverseWriteIfEmpty
  by_cases hk : k = c
  · subst hk
    cases hm : inverseRead m k with
    | none => simp [inverseRead_cons]
    | some u => simp [hm]
  · rw [if_neg hk, Option.or_none]
    split
    · rfl
    · rw [inverseRead_cons, if_neg hk]

/-- Overwriting from the last value down to the first leaves the first value with the code. -/
theorem inverseRead_foldr_overwrite (g : Byte → Sym) (vs : List Byte) (c : Sym) :
    inverseRead (vs.foldr (fun v m => inverseOverwrite m (g v) v) []) c =
      vs.find? fun v => decide (g v = c) := by
  induction vs with
  | nil => rfl
  | cons v vs ih =>
    rw [List.foldr_cons, inverseRead_overwrite, ih, List.find?_cons]
    by_cases hv : g v = c
    · rw [if_pos hv, decide_eq_true hv]
    · rw [if_neg hv, decide_eq_false hv]

/-- So does writing empty cells from the first value up. -/
theorem inverseRead_foldl_writeIfEmpty (g : Byte → Sym) (vs : List Byte) (m : InverseMap) (c : Sym) :
    inverseRead (vs.foldl (fun m v => inverseWriteIfEmpty m (g v) v) m) c =
      (inverseRead m c).or (vs.find? fun v => decide (g v = c)) := by
  induction vs generalizing m with
  | nil => simp
  | cons v vs ih =>
    rw [List.foldl_cons, ih, inverseRead_writeIfEmpty, Option.or_assoc, List.find?_cons]
    by_cases hv : g v = c
    · rw [if_pos hv, decide_eq_true hv, Option.some_or]
    · rw [if_neg hv, decide_eq_false hv, Option.none_or]

end Sys2Proof.Machine

/-- Settles O17: the value found has the same code, and an injective table leaves one value with it. -/
theorem translateInvertsAnInjectiveTable : Obligations.TranslateInvertsAnInjectiveTable := by
  intro T
  refine ⟨fun v => ?_, fun hinv u v hcode => ?injective, fun hinj v => ?inverse⟩
  · obtain ⟨u, hfound, -, hle⟩ := translate_tableRead T v
    exact ⟨u, hfound, hle⟩
  case injective =>
    have hsame : some u = some v := by rw [← hinv u, hcode, hinv v]
    exact Option.some.inj hsame
  case inverse =>
    obtain ⟨u, hfound, hcode, -⟩ := translate_tableRead T v
    rw [hfound, hinj u v hcode]

/-- Settles O18: both fillings, and the linear search, give the first source value with the code. -/
theorem inverseMapsAgreeWithTheSearch : Obligations.InverseMapsAgreeWithTheSearch := by
  intro T c
  rw [translate_eq_find]
  constructor
  · rw [inverseDescending, List.foldl_reverse]
    exact inverseRead_foldr_overwrite (tableRead T) sourceValues c
  · exact inverseRead_foldl_writeIfEmpty (tableRead T) sourceValues [] c

/-- Settles O38: the extracted word is the symbol of the slot, and the search finds `v` first. -/
theorem encodedValueRoundTrips : Obligations.EncodedValueRoundTrips := by
  intro T ts v lane hfirst hne hcode
  have hslot := extract_symbol (expand_length ts) (i := lane.val + 1) (by omega)
  have hsym : symbolOf (fun n => (expand ts).bits.getD n false) (lane.val + 1) = tableRead T v :=
    BitVec.eq_of_toNat_eq (Except.ok.inj (hslot.symm.trans hcode))
  have hfound : translate T (tableRead T v) = some v := translate_eq_some_iff.2 ⟨rfl, hfirst⟩
  refine ⟨_, _, decodeRuns_of_ne_nil T hne, ?_, ?_⟩
  · rw [frameOf_data, hsym, datadec_found hfound]
  · rw [frameOf_err, hsym, datadec_found hfound]

end

section
/-! What `expand` and `decode` make of clamped and of excess runs (43_frame_decode.md section 1, corner cases 4 and 5). -/

open Sys2Proof Sys2Proof.Machine

namespace Sys2Proof.Machine

theorem expand_map_clamp (ts : List Int) : expand (ts.map clamp) = expand ts := by
  rw [expand, List.foldl_map]
  simp only [runLength_clamp]
  rfl

theorem expand_append_list (ts us : List Int) :
    expand (ts ++ us) = expandBits (runStream us) (expand ts) := by
  rw [expand_eq_stream, runStream_append, expandBits_append, ← expand_eq_stream]

/-- At the ceiling an offered bit is lost. -/
theorem expandBits_at_ceiling (bs : List Bool) {e : Expansion} (h : e.wp = Config.bufBits) :
    (expandBits bs e).bits = e.bits := by
  induction bs generalizing e with
  | nil => rfl
  | cons b bs ih =>
    have hlost : expandBit b e = { e with trunc := true } := if_neg h.not_lt
    rw [expandBits_cons, hlost]
    exact ih (e := { e with trunc := true }) h

end Sys2Proof.Machine

/-- Settles O36: the expansion is the same, and both sequences are empty or neither is. -/
theorem decodeOfClampedRunsIsTheSame : Obligations.DecodeOfClampedRunsIsTheSame := by
  intro T ts
  by_cases hnil : ts = []
  · subst hnil
    rfl
  · have hmap : ts.map clamp ≠ [] := fun h => hnil (List.map_eq_nil_iff.1 h)
    rw [decodeRuns_of_ne_nil T hmap, decodeRuns_of_ne_nil T hnil, expand_map_clamp]

/-- Settles O37: the excess runs leave the stored bits, and so the symbols, as they are. -/
theorem excessRunsChangeAtMostTrunc : Obligations.ExcessRunsChangeAtMostTrunc := by
  intro T ts us F st hfull hdec
  have hne : ts ≠ [] := by
    rintro rfl
    rw [decodeRuns_nil] at hdec
    cases hdec
  have hbits : (expand (ts ++ us)).bits = (expand ts).bits := by
    rw [expand_append_list, expandBits_at_ceiling _ hfull]
  rw [decodeRuns_of_ne_nil T hne] at hdec
  obtain ⟨hframe, hside⟩ := Prod.mk.inj (Option.some.inj hdec)
  refine ⟨⟨(expand (ts ++ us)).trunc, st.subErr⟩, ?_, rfl⟩
  rw [decodeRuns_of_ne_nil T (List.append_ne_nil_of_left_ne_nil hne us), hbits, hframe, ← hside]

end

section
/-! Sequences of `RUN`s, as instructions and on the port (40_expand.md section 3, 43_frame_decode.md section 2). -/

open Sys2Proof Sys2Proof.Machine

namespace Sys2Proof.Machine

/-- What the runs `ts` make of a state `s` with an empty fill state: they leave `expand(ts)`, no event, and touch nothing but the
fill state, the event and the queue they are taken from (40_expand.md R105). -/
structure AfterRuns (s : State) (ts : List Int) (u : State) : Prop where
  canonical : u.cb.wf = true
  filled : FilledBy u ts
  kept : u = { s with
    cb := u.cb, wp := u.wp, haveRun := u.haveRun, truncW := u.truncW, event := u.event, input := u.input }
  no_event : ts ≠ [] → u.event = none

theorem afterRuns_nil {s : State} (hwf : s.cb.wf = true) (hfill : FillInv s) (hhave : s.haveRun = false) :
    AfterRuns s [] s :=
  ⟨hwf, filledBy_nil_of_empty hfill hhave, rfl, fun hne => absurd rfl hne⟩

theorem afterRuns_takeItem {s u : State} {ts : List Int} (h : AfterRuns s ts u) (rest : List PortItem) :
    AfterRuns s ts (takeItem rest u) :=
  ⟨h.canonical, h.filled.of_eq rfl rfl rfl rfl, congrArg (takeItem rest) h.kept, h.no_event⟩

theorem afterRuns_runState {s u : State} {ts : List Int} (h : AfterRuns s ts u) (t : Int) :
    AfterRuns s (ts ++ [t]) (runState t u) where
  canonical := runState_wf t h.canonical
  filled := filledBy_runState h.canonical h.filled t
  kept := by
    have hkept := h.kept
    have hrun : runState t u = { u with
        cb := (runState t u).cb, wp := (runState t u).wp, haveRun := (runState t u).haveRun
        truncW := (runState t u).truncW, event := (runState t u).event, input := (runState t u).input } := by
      rw [runState_haveRun, runState_event, runState_input]
      exact runState_frame t u
    refine hrun.trans ?_
    generalize runState t u = v
    rw [hkept]
  no_event := fun _ => runState_event t u

theorem AfterRuns.haveRun_eq_true {s u : State} {ts : List Int} (h : AfterRuns s ts u) (hne : ts ≠ []) :
    u.haveRun = true := by
  obtain ⟨hhave, -⟩ := h.filled
  exact hhave.2 hne

/-- The buffer's bits are those of the expansion. -/
theorem AfterRuns.bit_eq {s u : State} {ts : List Int} (h : AfterRuns s ts u) :
    u.cb.bit = fun n => (expand ts).bits.getD n false := by
  obtain ⟨-, -, -, hbits⟩ := h.filled
  exact funext hbits

theorem runInstrs_cons_of_exec {i : Instr} {s u : State} (h : exec i s = .next u) (is : List Instr) :
    runInstrs (i :: is) s = runInstrs is u := by
  rw [runInstrs, h]

/-- The runs given one after another as instructions. -/
theorem runInstrs_runs {s v : State} {us : List Int} (h : AfterRuns s us v) (ts : List Int) :
    ∃ u, runInstrs (ts.map Instr.run) v = .next u ∧ AfterRuns s (us ++ ts) u ∧ u.input = v.input := by
  induction ts generalizing us v with
  | nil => exact ⟨v, rfl, by rwa [List.append_nil], rfl⟩
  | cons t ts ih =>
    obtain ⟨u, hu, hafter, hinput⟩ := ih (afterRuns_runState h t)
    rw [List.append_assoc, List.singleton_append] at hafter
    refine ⟨u, ?_, hafter, hinput.trans (runState_input t v)⟩
    rw [List.map_cons, runInstrs_cons_of_exec (exec_run t v), hu]

theorem step_runWord {v : State} {t : Byte} {rest : List PortItem} (h : v.input = .command (runWord t) :: rest) :
    step v = .next (runState (tval t) (takeItem rest v)) := by
  rw [step_command h, decodeCommand_runWord, exec_run]

theorem step_endWord {v : State} {rest : List PortItem} (h : v.input = .command endWord :: rest) :
    step v = execEnd (takeItem rest v) := by
  rw [step_command h, decodeCommand_endWord, exec_endCmd]

/-- The runs taken off the port, a step each. -/
theorem coreRun_runsScript {s v : State} {us : List Int} (h : AfterRuns s us v) (ts : List Byte)
    {rest : List PortItem} (hinput : v.input = runsScript ts ++ rest) :
    ∃ u : State, core.run ts.length v = .next u ∧ AfterRuns s (us ++ ts.map tval) u ∧ u.input = rest := by
  induction ts generalizing us v with
  | nil => exact ⟨v, rfl, by rwa [List.map_nil, List.append_nil], hinput⟩
  | cons t ts ih =>
    have hstep : step v = .next (runState (tval t) (takeItem (runsScript ts ++ rest) v)) := step_runWord hinput
    obtain ⟨u, hu, hafter, hrest⟩ :=
      ih (afterRuns_runState (afterRuns_takeItem h (runsScript ts ++ rest)) (tval t)) (runState_input ..)
    rw [List.append_assoc, List.singleton_append] at hafter
    refine ⟨u, ?_, hafter, hrest⟩
    rw [List.length_cons, run_succ_of_step hstep, hu]

/-- A script up to its `k`th run, and the rest of it. -/
theorem frameScript_split (ts : List Byte) (k : Nat) :
    frameScript ts = runsScript (ts.take k) ++ frameScript (ts.drop k) := by
  rw [frameScript, frameScript, ← List.append_assoc, runsScript, runsScript, runsScript, ← List.map_append,
    List.take_append_drop]

/-- A canonical buffer of zeros is the empty list of cells. -/
theorem Memory.eq_nil_of_zeros {m : Memory} (hwf : m.wf = true) (hzero : ∀ n, m.bit n = false) : m = [] :=
  equalBufferBitsAreEqualData m [] hwf Memory.wf_nil fun n _ => (hzero n).trans (Memory.bit_nil n).symm

/-- The `END` after a non-empty sequence publishes what `decode` gives of it. -/
theorem endFrame_of_afterRuns {s u : State} {ts : List Int} (h : AfterRuns s ts u) (hne : ts ≠ []) :
    ∃ F st, decodeRuns s.table ts = some (F, st) ∧ heldFrame (endFrame u) = some F ∧
      heldSideFlags (endFrame u) = some st ∧ (endFrame u).table = s.table := by
  have htable : u.table = s.table := by rw [h.kept]
  have hsym : stateSymbol u = symbolOf fun n => (expand ts).bits.getD n false := by
    funext i
    rw [stateSymbol, h.bit_eq]
  obtain ⟨-, -, htrunc, -⟩ := h.filled
  refine ⟨_, _, decodeRuns_of_ne_nil s.table hne, ?_, ?_, (endFrame_table u).trans htable⟩
  · rw [heldFrame_endFrame, htable, hsym]
  · rw [heldSideFlags_endFrame, htable, hsym, htrunc]

end Sys2Proof.Machine

/-- Settles O23: the empty fill state is the expansion of no run, and each `RUN` appends its run. -/
theorem streamingEqualsBatch : Obligations.StreamingEqualsBatch := by
  intro ts s hne hwf hfill hhave
  obtain ⟨u, hu, hafter, hinput⟩ := runInstrs_runs (afterRuns_nil hwf hfill hhave) ts
  rw [List.nil_append] at hafter
  obtain ⟨-, hwp, htrunc, hbits⟩ := hafter.filled
  have hhave' := hafter.haveRun_eq_true hne
  have hkept := hafter.kept
  rw [hhave', hafter.no_event hne, hinput] at hkept
  exact ⟨u, hu, fun n _ => hbits n, hwp, htrunc, hhave', hkept⟩

/-- Settles O39: the runs leave their expansion, and the `END` splits on whether there was one. -/
theorem frameScriptRefinesDecode : Obligations.FrameScriptRefinesDecode := by
  intro ts rest s hwf hfill hhave hinput
  have hstart := afterRuns_nil hwf hfill hhave
  refine ⟨fun k hk hkl => ?noEvent, ?frame⟩
  case noEvent =>
    rw [frameScript_split ts k, List.append_assoc] at hinput
    obtain ⟨u, hu, hafter, -⟩ := coreRun_runsScript hstart (ts.take k) hinput
    rw [List.length_take, Nat.min_eq_left hkl] at hu
    have hne : (ts.take k).map tval ≠ [] := by
      rw [← List.length_pos_iff, List.length_map, List.length_take]
      omega
    exact ⟨u, hu, hafter.no_event hne⟩
  case frame =>
    rw [frameScript, List.append_assoc] at hinput
    obtain ⟨v, hv, hafter, hrest⟩ := coreRun_runsScript hstart ts hinput
    rw [List.nil_append] at hafter
    rw [run_succ_of_run hv, step_endWord hrest]
    by_cases hnil : ts = []
    · subst hnil
      cases hv
      refine ⟨endEmpty (takeItem rest s), execEnd_empty hhave, rfl, rfl,
        Memory.eq_nil_of_zeros hwf (hfill.empty_buffer hhave), hfill.empty_cursor hhave, hhave,
        hfill.empty_trunc hhave, fun _ => rfl, fun F st hsome => ?_⟩
      cases hsome
    · have hne : ts.map tval ≠ [] := fun h => hnil (List.map_eq_nil_iff.1 h)
      have htaken := afterRuns_takeItem hafter rest
      obtain ⟨F, st, hdec, hframe, hside, htable⟩ := endFrame_of_afterRuns htaken hne
      refine ⟨endFrame (takeItem rest v), execEnd_frame (htaken.haveRun_eq_true hne), rfl, htable, rfl, rfl, rfl, rfl,
        fun hnone => ?_, fun F' st' hsome => ?_⟩
      · rw [hdec] at hnone
        cases hnone
      · rw [hdec] at hsome
        cases hsome
        exact ⟨hframe, hside, rfl, rfl⟩

end

section
/-! The conditions of `RUN` and `END` (60_exceptions.md R180 to R191): which are raised, in which order, and the flag each is reported in. -/

open Sys2Proof Sys2Proof.Machine

namespace Sys2Proof.Machine

theorem bufferCeiling_mem_conditions_run (t : Int) (s : State) :
    Condition.bufferCeiling ∈ conditions (.run t) s ↔ discardsBit s.wp (runLength t) = true := by
  have hrange : Condition.bufferCeiling ∉ raiseIf (outOfRange t) .outOfRangeRun := by simp
  rw [conditions, runConditions, List.mem_append, or_iff_right hrange, mem_raiseIf, and_iff_left rfl]

theorem conditions_endCmd_frame {s : State} (h : s.haveRun = true) :
    conditions .endCmd s = slot0Conditions s.table (stateSymbol s 0) ++
      (List.finRange 32).flatMap fun lane => laneConditions s.table lane (stateSymbol s (lane.val + 1)) :=
  if_pos h

theorem mem_slot0Conditions (T : Vector Sym 256) (x : Sym) (c : Condition) :
    c ∈ slot0Conditions T x ↔ (subdec T x).subErr = true ∧ c = .translationFailure 0 :=
  mem_raiseIf ..

theorem mem_laneConditions (T : Vector Sym 256) (lane : Fin 32) (x : Sym) (c : Condition) :
    c ∈ laneConditions T lane x ↔ (datadec T x).err = true ∧ c = .translationFailure lane.succ :=
  mem_raiseIf ..

theorem endFrame_subErr (s : State) : (endFrame s).subErr = (subdec s.table (stateSymbol s 0)).subErr := rfl

/-- What a producing `END` raises: slot 0's failure with `SUBERR`, a lane's with its error flag. -/
theorem mem_conditions_endCmd_frame {s : State} (h : s.haveRun = true) (c : Condition) :
    c ∈ conditions .endCmd s ↔
      ((endFrame s).subErr = true ∧ c = .translationFailure 0) ∨
        ∃ lane : Fin 32, (endFrame s).err[lane] = true ∧ c = .translationFailure lane.succ := by
  rw [conditions_endCmd_frame h, List.mem_append, mem_slot0Conditions, List.mem_flatMap]
  refine or_congr Iff.rfl (exists_congr fun lane => ?_)
  rw [and_iff_right (List.mem_finRange lane), mem_laneConditions, (endFrame_lane s lane).2]

theorem slot0_failure_iff {s : State} (h : s.haveRun = true) :
    Condition.translationFailure 0 ∈ conditions .endCmd s ↔ (endFrame s).subErr = true := by
  rw [mem_conditions_endCmd_frame h, and_iff_left rfl, or_iff_left]
  rintro ⟨lane, -, heq⟩
  exact Fin.succ_ne_zero lane (Condition.translationFailure.inj heq).symm

theorem lane_failure_iff {s : State} (h : s.haveRun = true) (lane : Fin 32) :
    Condition.translationFailure lane.succ ∈ conditions .endCmd s ↔ (endFrame s).err[lane] = true := by
  rw [mem_conditions_endCmd_frame h]
  constructor
  · rintro (⟨-, heq⟩ | ⟨other, herr, heq⟩)
    · exact absurd (Condition.translationFailure.inj heq) (Fin.succ_ne_zero lane)
    · obtain rfl : lane = other := Fin.succ_injective 32 (Condition.translationFailure.inj heq)
      exact herr
  · exact fun herr => .inr ⟨lane, herr, rfl⟩

/-- A failure is reported for every slot not found, slot 0 only if it holds no sync code. -/
theorem failure_mem_iff {s : State} (h : s.haveRun = true) (k : Fin 33) :
    Condition.translationFailure k ∈ conditions .endCmd s ↔
      translate s.table (symbolOf s.cb.bit k.val) = none ∧
        (k = 0 → symbolOf s.cb.bit 0 ≠ Config.s0 ∧ symbolOf s.cb.bit 0 ≠ Config.s1) := by
  cases k using Fin.cases with
  | zero =>
    rw [slot0_failure_iff h, endFrame_subErr, subdec_subErr_iff]
    constructor
    · rintro ⟨h0, h1, hnone⟩
      exact ⟨hnone, fun _ => ⟨h0, h1⟩⟩
    · rintro ⟨hnone, hsync⟩
      obtain ⟨h0, h1⟩ := hsync rfl
      exact ⟨h0, h1, hnone⟩
  | succ lane =>
    rw [lane_failure_iff h, (endFrame_lane s lane).2, datadec_err_iff]
    exact ⟨fun hnone => ⟨hnone, fun heq => absurd heq (Fin.succ_ne_zero lane)⟩, And.left⟩

/-- `a` is reported before `b` if both are failures of slots. -/
def slotOrder (a b : Condition) : Prop :=
  ∀ j k, a = .translationFailure j → b = .translationFailure k → j < k

theorem slotOrder_of_lt {j k : Fin 33} (h : j < k) : slotOrder (.translationFailure j) (.translationFailure k) := by
  rintro _ _ ⟨⟩ ⟨⟩
  exact h

/-- At most one condition is in order with itself. -/
theorem pairwise_raiseIf (R : Condition → Condition → Prop) (b : Bool) (c : Condition) :
    (raiseIf b c).Pairwise R := by
  cases b
  · exact .nil
  · exact List.pairwise_singleton R c

/-- Slot 0 comes first, and the lanes ascend. -/
theorem conditions_endCmd_ordered {s : State} (h : s.haveRun = true) :
    (conditions .endCmd s).Pairwise slotOrder := by
  rw [conditions_endCmd_frame h, List.pairwise_append, List.pairwise_flatMap]
  refine ⟨pairwise_raiseIf .., ⟨fun lane _ => pairwise_raiseIf .., ?lanes⟩, fun a ha b hb => ?slot0⟩
  case lanes =>
    refine (List.pairwise_lt_finRange 32).imp fun {lane other} hlt a ha b hb => ?_
    obtain ⟨-, rfl⟩ := (mem_laneConditions ..).1 ha
    obtain ⟨-, rfl⟩ := (mem_laneConditions ..).1 hb
    exact slotOrder_of_lt (Fin.succ_lt_succ_iff.2 hlt)
  case slot0 =>
    obtain ⟨lane, -, hb⟩ := List.mem_flatMap.1 hb
    obtain ⟨-, rfl⟩ := (mem_slot0Conditions ..).1 ha
    obtain ⟨-, rfl⟩ := (mem_laneConditions ..).1 hb
    exact slotOrder_of_lt (Fin.succ_pos lane)

theorem raiseIf_eq_ite {b : Bool} {p : Prop} [Decidable p] (h : b = true ↔ p) (c : Condition) :
    raiseIf b c = if p then [c] else [] :=
  if_congr h rfl rfl

end Sys2Proof.Machine

/-- Settles O22: the condition is the ceiling test of the run, which `RUN` also adds to `TRUNC_W`. -/
theorem ceilingConditionSetsTheWorkingFlag : Obligations.CeilingConditionSetsTheWorkingFlag := by
  intro t s
  refine ⟨?_, fun u hu => ?_⟩
  · rw [bufferCeiling_mem_conditions_run]
    exact discardsBit_iff (one_le_runLength t)
  · rw [exec_run] at hu
    cases hu
    rw [bufferCeiling_mem_conditions_run, runState_truncW_eq, Bool.or_eq_true]

/-- Settles O30: a `RUN` lists its two tests; an `END` raises a failure with each error flag, slot 0's first, the lanes' ascending. -/
theorem conditionsAreReportedInOrder : Obligations.ConditionsAreReportedInOrder := by
  intro s
  refine ⟨fun t => ?run, conditions_endCmd_empty, fun hhave => ⟨fun c hc => ?onlyFailures, failure_mem_iff hhave,
    conditions_endCmd_ordered hhave, fun u hu => ?flags⟩⟩
  case run =>
    exact congrArg₂ (· ++ ·) (raiseIf_eq_ite (outOfRange_iff t) _)
      (raiseIf_eq_ite (discardsBit_iff (one_le_runLength t)) _)
  case onlyFailures =>
    rcases (mem_conditions_endCmd_frame hhave c).1 hc with ⟨-, rfl⟩ | ⟨lane, -, rfl⟩
    · exact ⟨0, rfl⟩
    · exact ⟨lane.succ, rfl⟩
  case flags =>
    rw [eq_endFrame_of_exec_endCmd hhave hu]
    exact ⟨slot0_failure_iff hhave, lane_failure_iff hhave⟩

end

section
/-! `END` as the composition of its 33 symbol instructions (30_encoding.md sections 6 and 9; log 5), and what its frame depends on
(20_memory.md section 4). -/

open Sys2Proof Sys2Proof.Machine

namespace Sys2Proof.Machine

/-- Write several lanes, one after another. -/
def writeLanes (r : Fin 32 → DataResult) (lanes : List (Fin 32)) (s : State) : State :=
  lanes.foldl (fun s lane => writeLane lane (r lane) s) s

theorem writeLanes_cons (r : Fin 32 → DataResult) (lane : Fin 32) (lanes : List (Fin 32)) (s : State) :
    writeLanes r (lane :: lanes) s = writeLanes r lanes (writeLane lane (r lane) s) := rfl

/-- Only the lanes are written. -/
theorem writeLanes_frame (r : Fin 32 → DataResult) (lanes : List (Fin 32)) (s : State) :
    writeLanes r lanes s = { s with data := (writeLanes r lanes s).data, err := (writeLanes r lanes s).err } := by
  induction lanes generalizing s with
  | nil => rfl
  | cons lane lanes ih => exact ih (writeLane lane (r lane) s)

/-- A lane that has its result keeps it, whatever lanes are written later. -/
theorem writeLanes_keeps (r : Fin 32 → DataResult) (lanes : List (Fin 32)) {s : State} {lane : Fin 32}
    (h : s.data[lane] = (r lane).value ∧ s.err[lane] = (r lane).err) :
    (writeLanes r lanes s).data[lane] = (r lane).value ∧ (writeLanes r lanes s).err[lane] = (r lane).err := by
  induction lanes generalizing s with
  | nil => exact h
  | cons next lanes ih =>
    refine ih ?_
    by_cases hnext : lane = next
    · subst hnext
      exact writeLane_same lane (r lane) s
    · obtain ⟨hdata, herr⟩ := writeLane_other hnext (r next) s
      rwa [hdata, herr]

/-- A lane in the list ends with its result. -/
theorem writeLanes_of_mem (r : Fin 32 → DataResult) {lanes : List (Fin 32)} (s : State) {lane : Fin 32}
    (h : lane ∈ lanes) :
    (writeLanes r lanes s).data[lane] = (r lane).value ∧ (writeLanes r lanes s).err[lane] = (r lane).err := by
  induction lanes generalizing s with
  | nil => cases h
  | cons next lanes ih =>
    rw [writeLanes_cons]
    rcases List.mem_cons.1 h with rfl | hmem
    · exact writeLanes_keeps r lanes (writeLane_same lane (r lane) s)
    · exact ih _ hmem

/-- Writing all lanes leaves the vectors of all results. -/
theorem writeLanes_all (r : Fin 32 → DataResult) (s : State) :
    writeLanes r (List.finRange 32) s =
      { s with data := Vector.ofFn fun lane => (r lane).value, err := Vector.ofFn fun lane => (r lane).err } := by
  have hlane (i : Nat) (hi : i < 32) := writeLanes_of_mem r s (List.mem_finRange ⟨i, hi⟩)
  have hdata : (writeLanes r (List.finRange 32) s).data = Vector.ofFn fun lane => (r lane).value :=
    Vector.ext fun i hi => by rw [Vector.getElem_ofFn]; exact (hlane i hi).1
  have herr : (writeLanes r (List.finRange 32) s).err = Vector.ofFn fun lane => (r lane).err :=
    Vector.ext fun i hi => by rw [Vector.getElem_ofFn]; exact (hlane i hi).2
  rw [writeLanes_frame, hdata, herr]

/-- Data-slot instructions are writes of their lanes with what `datadec` answers. -/
theorem runInstrs_dataSlots (sym : Fin 32 → Sym) (lanes : List (Fin 32)) (s : State) :
    runInstrs (lanes.map fun lane => decodeDataSlot lane (sym lane)) s =
      .next (writeLanes (fun lane => datadec s.table (sym lane)) lanes s) := by
  induction lanes generalizing s with
  | nil => rfl
  | cons lane lanes ih =>
    rw [List.map_cons, decodeDataSlot, runInstrs_cons_of_exec (exec_data ..), ih, writeLane_table, writeLanes_cons]

/-- The 33 symbol instructions leave slot 0's registers and all lanes decoded. -/
theorem runInstrs_symbolInstrs (s : State) :
    runInstrs (symbolInstrs s) s = .next (writeLanes (fun lane => datadec s.table (stateSymbol s (lane.val + 1)))
      (List.finRange 32) (writeSlot0 (subdec s.table (stateSymbol s 0)) s)) := by
  rw [symbolInstrs, runInstrs_cons_of_exec (exec_decodeSlot0 ..), runInstrs_dataSlots, writeSlot0_table]

end Sys2Proof.Machine

/-- Settles O29: the symbol instructions write the registers of the frame, and publishing and clearing write the other fields. -/
theorem endRunsItsDecodedSymbols : Obligations.EndRunsItsDecodedSymbols := by
  intro s hhave
  refine ⟨_, runInstrs_symbolInstrs s, ?_⟩
  rw [exec_endCmd, execEnd_frame hhave, endFrame_eq, writeLanes_all]
  rfl

/-- Settles O32: the 33 symbols and the table are all the frame is made of. -/
theorem frameDependsOnSymbolBitsOnly : Obligations.FrameDependsOnSymbolBitsOnly := by
  intro s s' u u' hhave hhave' htable hbits hu hu'
  have hsym : ∀ i, i < 33 → stateSymbol s i = stateSymbol s' i :=
    fun i hi => symbolOf_congr fun j hj => hbits i j hi hj
  have hheld : heldFrame (endFrame s) = heldFrame (endFrame s') := by
    rw [heldFrame_endFrame, heldFrame_endFrame, htable, frameOf_congr _ hsym]
  have hsub : (endFrame s).subErr = (endFrame s').subErr := by
    rw [endFrame_subErr, endFrame_subErr, htable, hsym 0 (by decide)]
  rw [eq_endFrame_of_exec_endCmd hhave hu, eq_endFrame_of_exec_endCmd hhave' hu']
  exact ⟨hheld, hsub, congrArg (Option.map packFrame) hheld⟩

end

section
/-! The step: it completes, reset clears, and the output registers change only where a frame is produced
(10_state.md sections 5, 11, 12; 70_reset_and_hazards.md). -/

open Sys2Proof Sys2Proof.Machine

namespace Sys2Proof.Machine

theorem exec_total (i : Instr) (s : State) : ∃ u, exec i s = .next u := by
  cases i <;> exact ⟨_, rfl⟩

theorem heldFrame_of_no_frame {s : State} (h : s.fv = false) : heldFrame s = none := by
  rw [heldFrame, h]
  rfl

theorem heldSideFlags_of_no_frame {s : State} (h : s.fv = false) : heldSideFlags s = none := by
  rw [heldSideFlags, h]
  rfl

theorem heldSideFlags_of_fv {s : State} (h : s.fv = true) : heldSideFlags s = some ⟨s.trunc, s.subErr⟩ :=
  if_pos h

/-- Bit `n` of `STATUS` once a frame is held (10_state.md R32). -/
def statusBit (s : State) (n : Nat) : Bool := [s.fv, s.missing, s.trunc, s.subErr].getD n false

/-- The output registers, `FV` and the side flags are the same in both states (10_state.md section 5). -/
def SameOutputs (u s : State) : Prop :=
  u.fv = s.fv ∧ u.data = s.data ∧ u.err = s.err ∧ u.sub = s.sub ∧ u.sync0 = s.sync0 ∧ u.sync1 = s.sync1 ∧
    u.trunc = s.trunc ∧ u.subErr = s.subErr

theorem SameOutputs.held_eq {u s : State} (h : SameOutputs u s) :
    heldFrame u = heldFrame s ∧ heldSideFlags u = heldSideFlags s := by
  obtain ⟨hfv, hdata, herr, hsub, h0, h1, htrunc, hsubErr⟩ := h
  rw [heldFrame, heldSideFlags, heldFrame, heldSideFlags, hfv, hdata, herr, hsub, h0, h1, htrunc, hsubErr]
  exact ⟨rfl, rfl⟩

theorem sameOutputs_runState (t : Int) (s : State) : SameOutputs (runState t s) s :=
  ⟨runState_fv .., runState_data .., runState_err .., runState_sub .., runState_sync0 .., runState_sync1 ..,
    runState_trunc .., runState_subErr ..⟩

/-- What a step can do to the output registers: nothing, reset them, or publish a frame. -/
theorem step_outputs {s u : State} (h : step s = .next u) :
    SameOutputs u s ∨ (∃ rest, s.input = .rst :: rest ∧ u = assertReset (takeItem rest s)) ∨
      (∃ w rest, s.input = .command w :: rest ∧ decodeCommand w = .endCmd ∧ s.haveRun = true ∧
        u = endFrame (takeItem rest s)) := by
  rcases step_cases h with ⟨-, rfl⟩ | hrst | ⟨w, rest, t, -, -, rfl⟩ | hframe | ⟨w, rest, -, -, -, rfl⟩
  · exact .inl ⟨rfl, rfl, rfl, rfl, rfl, rfl, rfl, rfl⟩
  · exact .inr (.inl hrst)
  · exact .inl (sameOutputs_runState t (takeItem rest s))
  · exact .inr (.inr hframe)
  · exact .inl ⟨rfl, rfl, rfl, rfl, rfl, rfl, rfl, rfl⟩

end Sys2Proof.Machine

/-- Settles O40: a command word decodes to one instruction, and the step takes it off the queue. -/
theorem stepExecutesTheDecodedCommand : Obligations.StepExecutesTheDecodedCommand := by
  intro s rest
  refine ⟨fun w i hinput hdec => ?_, step_idle⟩
  have hi : decodeCommand w = i := Except.ok.inj ((decode_cmd_toNat w).symm.trans hdec)
  rw [step_command hinput, hi, takeItem]

/-- Settles O41: reset answers `assertReset`, whose fields are those of the reset state but for `TABLE` and the queue. -/
theorem resetClearsAndKeepsTheTable : Obligations.ResetClearsAndKeepsTheTable := by
  intro s rest hinput
  exact ⟨_, step_rst hinput, Memory.bit_nil, rfl, rfl, rfl, rfl, rfl, rfl, heldFrame_of_no_frame rfl,
    heldSideFlags_of_no_frame rfl, assertReset_table _, rfl⟩

/-- Settles O42: no case of the queue and no arm of `exec` answers a fault or a refusal. -/
theorem everyStepCompletes : Obligations.EveryStepCompletes := ⟨step_total, exec_total⟩

/-- Settles O47: the two hypotheses exclude the two cases of `step_outputs` that write. -/
theorem outputRegistersChangeOnlyAtAFrame : Obligations.OutputRegistersChangeOnlyAtAFrame := by
  intro s u hstep hnoReset hnoFrame
  rcases step_outputs hstep with hsame | ⟨rest, hinput, -⟩ | ⟨w, rest, hinput, hend, hhave, -⟩
  · obtain ⟨hframe, hside⟩ := hsame.held_eq
    exact ⟨hframe, hside, hsame⟩
  · exact absurd hinput (hnoReset rest)
  · rw [hnoFrame w rest hinput hend] at hhave
    cases hhave

/-- Settles O48: of the three cases of `step_outputs` only reset clears `FV` and only a frame sets it. -/
theorem frameValidFallsOnlyByReset : Obligations.FrameValidFallsOnlyByReset := by
  intro s u hstep
  rcases step_outputs hstep with ⟨hfv, -⟩ | ⟨rest, hinput, rfl⟩ | ⟨w, rest, hinput, hend, hhave, rfl⟩
  · refine ⟨fun hs hu => ?_, fun hs hu => ?_⟩ <;> rw [hfv, hs] at hu <;> cases hu
  · exact ⟨fun _ _ => ⟨rest, hinput⟩, fun _ hu => by cases hu⟩
  · exact ⟨fun _ hu => (by cases hu), fun _ _ => ⟨w, rest, hinput, hend, hhave⟩⟩

/-- Settles O51: `STATUS` is read field by field, and its word is packed from the same four bits. -/
theorem statusAndFrameReads : Obligations.StatusAndFrameReads := by
  intro s
  refine ⟨rfl, rfl, rfl, rfl, fun hfv => ?noFrame, fun hfv => ?frame⟩
  case noFrame =>
    have hside := heldSideFlags_of_no_frame hfv
    have htrunc : (readStatus s).trunc = none := congrArg (Option.map SideFlags.trunc) hside
    have hsubErr : (readStatus s).subErr = none := congrArg (Option.map SideFlags.subErr) hside
    exact ⟨congrArg (Option.map packFrame) (heldFrame_of_no_frame hfv), htrunc, hsubErr, htrunc, hsubErr⟩
  case frame =>
    have hside := heldSideFlags_of_fv hfv
    have htrunc : (readStatus s).trunc = some s.trunc := congrArg (Option.map SideFlags.trunc) hside
    have hsubErr : (readStatus s).subErr = some s.subErr := congrArg (Option.map SideFlags.subErr) hside
    have hword : statusWord s = some (packBits (statusBit s) 4) := congrArg (Option.map _) hside
    exact ⟨htrunc, hsubErr, htrunc, hsubErr, _, hword, (packBits_getLsbD ..).trans hfv, packBits_getLsbD ..,
      packBits_getLsbD .., packBits_getLsbD ..⟩

end

section
/-! Before the first frame (10_state.md section 5; U9, log 2): the contents of the output registers take part in no step. -/

open Sys2Proof Sys2Proof.Machine

namespace Sys2Proof.Machine

/-- Other contents of the output registers and their flags. -/
def withOutputs (f : Frame) (st : SideFlags) (s : State) : State :=
  { s with
    data := f.data, err := f.err, sub := f.sub, sync0 := f.sync0, sync1 := f.sync1
    trunc := st.trunc, subErr := st.subErr }

theorem emitBit_withOutputs (b : Bool) (f : Frame) (st : SideFlags) (s : State) :
    emitBit b (withOutputs f st s) = withOutputs f st (emitBit b s) := by
  by_cases h : s.wp < Config.bufBits
  · rw [emitBit, emitBit, if_pos h]
    exact if_pos h
  · rw [emitBit, emitBit, if_neg h]
    exact if_neg h

theorem emitZeros_withOutputs (n : Nat) (f : Frame) (st : SideFlags) (s : State) :
    emitZeros n (withOutputs f st s) = withOutputs f st (emitZeros n s) := by
  induction n generalizing s with
  | zero => rfl
  | succ n ih => rw [emitZeros, emitZeros, emitBit_withOutputs, ih]

theorem runState_withOutputs (t : Int) (f : Frame) (st : SideFlags) (s : State) :
    runState t (withOutputs f st s) = withOutputs f st (runState t s) := by
  rw [runState, runState, emitRun, emitRun, emitBit_withOutputs, emitZeros_withOutputs]
  rfl

/-- With other contents of the output registers a step does the same: it leaves them as they are, or replaces them by a
frame or a reset and answers the very same state. -/
theorem step_withOutputs {s u : State} (f : Frame) (st : SideFlags) (h : step s = .next u) :
    step (withOutputs f st s) = .next u ∨
      (step (withOutputs f st s) = .next (withOutputs f st u) ∧ u.fv = s.fv) := by
  rcases step_cases h with ⟨hi, rfl⟩ | ⟨rest, hi, rfl⟩ | ⟨w, rest, t, hi, hd, rfl⟩ |
    ⟨w, rest, hi, hd, hhave, rfl⟩ | ⟨w, rest, hi, hd, hhave, rfl⟩
  all_goals have hi' := show (withOutputs f st s).input = _ from hi
  · exact .inr ⟨step_idle hi', rfl⟩
  · exact .inl (step_rst hi')
  · refine .inr ⟨?_, runState_fv ..⟩
    rw [step_command hi', hd, exec_run]
    exact congrArg Host.Outcome.next (runState_withOutputs t f st (takeItem rest s))
  · refine .inl ?_
    rw [step_command hi', hd, exec_endCmd]
    exact execEnd_frame hhave
  · refine .inr ⟨?_, rfl⟩
    rw [step_command hi', hd, exec_endCmd]
    exact execEnd_empty hhave

end Sys2Proof.Machine

/-- Settles O49: the second step answers the same state, or one that still holds no frame and differs in the output registers only. -/
theorem preFrameContentsNeverShow : Obligations.PreFrameContentsNeverShow := by
  intro s u u' d e b y0 y1 tr se hfv hstep hstep'
  rcases step_withOutputs ⟨d, e, b, y0, y1⟩ ⟨tr, se⟩ hstep with hsame | ⟨hother, hkept⟩
  · cases hstep'.symm.trans hsame
    exact ⟨rfl, rfl, rfl, rfl, fun _ => rfl, rfl⟩
  · cases hstep'.symm.trans hother
    have hu : u.fv = false := hkept.trans hfv
    have hframe : heldFrame u = heldFrame (withOutputs ⟨d, e, b, y0, y1⟩ ⟨tr, se⟩ u) :=
      (heldFrame_of_no_frame hu).trans (heldFrame_of_no_frame (s := withOutputs _ _ u) hu).symm
    have hside : heldSideFlags u = heldSideFlags (withOutputs ⟨d, e, b, y0, y1⟩ ⟨tr, se⟩ u) :=
      (heldSideFlags_of_no_frame hu).trans (heldSideFlags_of_no_frame (s := withOutputs _ _ u) hu).symm
    have hstatus : readStatus u = readStatus (withOutputs ⟨d, e, b, y0, y1⟩ ⟨tr, se⟩ u) := by
      rw [readStatus, hside]
      rfl
    refine ⟨congrArg (Option.map packFrame) hframe, hstatus, ?_, rfl, fun htrue => ?_, rfl⟩
    · rw [outStatus, hstatus]
      rfl
    · rw [hu] at htrue
      cases htrue

end

section
/-! Several machines side by side (60_exceptions.md R203). -/

open Sys2Proof Sys2Proof.Machine

namespace Sys2Proof.Machine

theorem stepAt_of_step {ms : List State} {k : Nat} {s t : State} (hget : ms[k]? = some s) (hstep : step s = .next t) :
    stepAt ms k = .next (ms.set k t) := by
  rw [stepAt, hget]
  simp only [hstep]

/-- Replacing a machine by one with the same table keeps the common table. -/
theorem shareTable_set {T : Vector Sym 256} {ms : List State} (h : shareTable T ms) {t : State} (ht : t.table = T)
    (k : Nat) : shareTable T (ms.set k t) := fun s hs =>
  (List.mem_or_eq_of_mem_set hs).elim (h s) fun heq => heq ▸ ht

end Sys2Proof.Machine

/-- Settles O52: a step replaces its own list entry, and replacements at different places commute. -/
theorem instancesDoNotInterfere : Obligations.InstancesDoNotInterfere := by
  intro ms j k hj hk hne
  obtain ⟨u, hu⟩ := step_total ms[j]
  obtain ⟨v, hv⟩ := step_total ms[k]
  have hgetj : ms[j]? = some ms[j] := List.getElem?_eq_getElem hj
  have hgetk : ms[k]? = some ms[k] := List.getElem?_eq_getElem hk
  have hotherk : (ms.set j u)[k]? = ms[k]? := List.getElem?_set_ne hne
  have hotherj : (ms.set k v)[j]? = ms[j]? := List.getElem?_set_ne hne.symm
  refine ⟨ms.set j u, ms.set k v, (ms.set j u).set k v, stepAt_of_step hgetj hu,
    stepAt_of_step (hotherk.trans hgetk) hv, stepAt_of_step hgetk hv, ?_, hotherk, fun T hshare => ?_⟩
  · rw [stepAt_of_step (hotherj.trans hgetj) hu, List.set_comm _ _ hne.symm]
  · have htable {i : Nat} {t : State} (hi : i < ms.length) (ht : step ms[i] = .next t) : t.table = T :=
      (step_keeps_table ht).trans (hshare _ (List.getElem_mem hi))
    exact shareTable_set (shareTable_set hshare (htable hj hu) j) (htable hk hv) k

end

section
/-! The counted `RUN` and `END` (43_frame_decode.md R161, 70_reset_and_hazards.md R221): the plain results, and their counts. -/

open Sys2Proof Sys2Proof.Machine

namespace Sys2Proof.Machine

/-- A counted run writes as many bits as the cursor advances. -/
theorem runCounted_eq (t : Int) (s : State) :
    runCounted t s = (runState t s, min (runLength t) (Config.bufBits - s.wp)) := by
  have hc := one_le_runLength t
  have hcount : 0 + min 1 (Config.bufBits - s.wp) + min (runLength t - 1) (Config.bufBits - (emitBit true s).wp) =
      min (runLength t) (Config.bufBits - s.wp) := by
    rw [emitBit_wp]
    omega
  rw [runCounted, emitBitCounted_eq, emitZerosCounted_eq, hcount]
  rfl

theorem slot0Counted_eq (s : State) :
    slot0Counted s =
      (subdec s.table (stateSymbol s 0), ⟨14, (subdecCounted s.table (stateSymbol s 0)).2⟩) := by
  rw [slot0Counted, symbolCounted_eq, ← subdecCounted_fst]
  rfl

theorem laneCounted_eq (s : State) (lane : Fin 32) :
    laneCounted s lane =
      (datadec s.table (stateSymbol s (lane.val + 1)),
        ⟨14, (translateCounted s.table (stateSymbol s (lane.val + 1))).2⟩) := by
  rw [laneCounted, symbolCounted_eq, ← datadecCounted_fst, ← datadecCounted_snd]
  rfl

theorem endCounted_empty {s : State} (h : s.haveRun = false) : endCounted s = (endEmpty s, ⟨0, 0⟩) := by
  rw [endCounted, h]
  rfl

theorem endCounted_frame_fst {s : State} (h : s.haveRun = true) : (endCounted s).1 = endFrame s := by
  rw [endCounted, if_pos h]
  simp only [slot0Counted_eq, laneCounted_eq]
  rfl

/-- 33 symbols of 14 bits are read. -/
theorem endCounted_bitReads {s : State} (h : s.haveRun = true) : (endCounted s).2.bitReads = 462 := by
  rw [endCounted, if_pos h]
  simp [slot0Counted_eq, laneCounted_eq, Function.comp_def]

/-- Slot 0's comparisons and at most 256 for each of the 32 lanes. -/
theorem endCounted_comparisons_le {s : State} (h : s.haveRun = true) :
    (endCounted s).2.comparisons ≤ (subdecCounted s.table (stateSymbol s 0)).2 + 8192 := by
  rw [endCounted, if_pos h]
  simp only [slot0Counted_eq]
  refine Nat.add_le_add_left ((List.sum_le_card_nsmul _ 256 fun n hn => ?_).trans ?_) _
  · simp only [List.mem_map] at hn
    obtain ⟨_, ⟨lane, -, rfl⟩, rfl⟩ := hn
    rw [laneCounted_eq]
    exact translateCounted_snd_le ..
  · simp

theorem subdecCounted_sync (T : Vector Sym 256) {c : Sym} (h : c = Config.s0 ∨ c = Config.s1) :
    (subdecCounted T c).2 = 0 := by
  rcases h with rfl | rfl <;> rfl

theorem translateCounted_snd_of_some {T : Vector Sym 256} {c : Sym} {v : Byte} (h : translate T c = some v) :
    (translateCounted T c).2 = v.toNat + 1 := by
  have hcount := searchCounted_snd_of_some (l := T.toList) (v := 0) (by simp) h
  rwa [Nat.zero_add] at hcount

theorem translateCounted_snd_of_none {T : Vector Sym 256} {c : Sym} (h : translate T c = none) :
    (translateCounted T c).2 = 256 :=
  (searchCounted_snd_of_none h).trans Vector.length_toList

end Sys2Proof.Machine

/-- Settles O53: the counted forms give the plain results, and their counts are the cursor's advance, 14 bits a symbol, and at most
256 comparisons a search. -/
theorem workIsBounded : Obligations.WorkIsBounded := by
  intro s
  refine ⟨fun t => ?run, ?endResult, fun hhave => ?frame, fun hempty => ?empty, fun c => ?search⟩
  case run =>
    have hbounds := runLength_bounds t
    have hB : Config.bufBits = 592 := rfl
    rw [runCounted_eq]
    refine ⟨exec_run t s, runState_wp_eq t s, ?_, fun hle => ?_⟩
    · simp only
      omega
    · simp only [runState_wp_eq]
      omega
  case endResult =>
    rw [exec_endCmd]
    cases hhave : s.haveRun with
    | true => rw [endCounted_frame_fst hhave, execEnd_frame hhave]
    | false => rw [endCounted_empty hhave, execEnd_empty hhave]
  case frame =>
    have hle := endCounted_comparisons_le hhave
    refine ⟨endCounted_bitReads hhave, ?_, fun hsync => ?_⟩
    · have hslot0 := subdecCounted_snd_le s.table (stateSymbol s 0)
      omega
    · have hslot0 := subdecCounted_sync s.table (c := stateSymbol s 0) hsync
      omega
  case empty => rw [endCounted_empty hempty]
  case search =>
    exact ⟨translateCounted_fst .., fun v => translateCounted_snd_of_some, translateCounted_snd_of_none⟩

end

section
/-! The byte accumulator (10_state.md R29): what it holds after a string of bits. -/

open Sys2Proof Sys2Proof.Machine

namespace Sys2Proof.Machine

theorem getD_append_singleton {α : Type} (l : List α) (x d : α) (n : Nat) :
    (l ++ [x]).getD n d = if n = l.length then x else l.getD n d := by
  rcases Nat.lt_trichotomy n l.length with hn | rfl | hn
  · rw [if_neg (by omega), List.getD_append _ _ _ _ hn]
  · rw [if_pos rfl, List.getD_append_right _ _ _ _ (Nat.le_refl _), Nat.sub_self, List.getD_cons_zero]
  · rw [if_neg (by omega), List.getD_eq_default _ _ (by simp; omega), List.getD_eq_default _ _ (by omega)]

/-- The accumulator after the bits `bs`: its position is their number, up to the ceiling, and the flush shows them. -/
structure Gathered (bs : List Bool) (a : Accumulator) : Prop where
  count_lt : a.count < 8
  position : 8 * a.stored.length + a.count = min bs.length Config.bufBits
  bits : ∀ k j, j < 8 → 8 * k + j < Config.bufBits → (flushed a k).getLsbD (7 - j) = bs.getD (8 * k + j) false

theorem flushed_stored_length (a : Accumulator) : flushed a a.stored.length = a.acc := by
  rw [flushed, getD_snoc, if_pos rfl]

theorem gathered_nil : Gathered [] emptyAccumulator := by
  refine ⟨by decide, rfl, fun k j _ _ => ?_⟩
  have hzero : flushed emptyAccumulator k = 0#8 := by
    rw [flushed, getD_snoc]
    split <;> rfl
  rw [hzero, BitVec.getLsbD_zero, List.getD_nil]

/-- A gathered bit moves the position by one. -/
theorem gatherBit_position (b : Bool) {a : Accumulator} (hroom : a.stored.length < Config.bufBytes)
    (hcount : a.count < 8) :
    (gatherBit b a).count < 8 ∧
      8 * (gatherBit b a).stored.length + (gatherBit b a).count = 8 * a.stored.length + a.count + 1 := by
  rw [gatherBit, if_pos hroom]
  by_cases hfull : a.count = 7
  · rw [if_pos hfull]
    simp only [List.length_append, List.length_singleton]
    omega
  · rw [if_neg hfull]
    simp only
    omega

theorem gathered_gatherBit {bs : List Bool} {a : Accumulator} (h : Gathered bs a) (b : Bool) :
    Gathered (bs ++ [b]) (gatherBit b a) := by
  obtain ⟨hcount, hpos, hbits⟩ := h
  have hB : Config.bufBits = 592 := rfl
  have hbytes : Config.bufBytes = 74 := rfl
  by_cases hroom : a.stored.length < Config.bufBytes
  · obtain ⟨hcount', hpos'⟩ := gatherBit_position b hroom hcount
    refine ⟨hcount', ?position, fun k j hj hn => ?bits⟩
    case position =>
      rw [hpos', List.length_append, List.length_singleton]
      omega
    case bits =>
      rw [flushed_gatherBit b hroom, getD_append_singleton, ← hbits k j hj hn]
      by_cases hk : k = a.stored.length
      · subst hk
        rw [if_pos rfl, byteWithBit_getLsbD _ (by omega) (by omega), flushed_stored_length]
        exact if_congr (by omega) rfl rfl
      · rw [if_neg hk, if_neg (by omega)]
  · have hsame : gatherBit b a = a := if_neg hroom
    rw [hsame]
    refine ⟨hcount, ?position, fun k j hj hn => ?bits⟩
    case position =>
      rw [List.length_append, List.length_singleton]
      omega
    case bits => rw [hbits k j hj hn, List.getD_append _ _ _ _ (by omega)]

theorem gathered_foldl (bs : List Bool) : Gathered bs (bs.foldl (fun a b => gatherBit b a) emptyAccumulator) := by
  induction bs using List.reverseRecOn with
  | nil => exact gathered_nil
  | append_singleton bs b ih =>
    rw [List.foldl_append]
    exact gathered_gatherBit ih b

theorem gathered_gatherRuns (ts : List Int) : Gathered (runStream ts) (gatherRuns ts) := gathered_foldl _

/-- The flushed bytes are those of the buffer that holds the expansion. -/
theorem flushed_gatherRuns {s : State} {ts : List Int} (h : FilledBy s ts) {k : Nat} (hk : k < Config.bufBytes) :
    flushed (gatherRuns ts) k = s.cb.readByte k := by
  obtain ⟨-, -, -, hbits⟩ := h
  have hB : Config.bufBits = 592 := rfl
  have hk74 : k < 74 := hk
  apply BitVec.eq_of_getLsbD_eq
  intro i hi
  have hn : 8 * k + (7 - i) < Config.bufBits := by omega
  have hgathered := (gathered_gatherRuns ts).bits k (7 - i) (by omega) hn
  have hread := Memory.bit_in_byte s.cb k (j := 7 - i) (by omega)
  rw [hbits, expand_getD_stream, decide_eq_true hn, Bool.true_and, ← hgathered] at hread
  rwa [show 7 - (7 - i) = i by omega] at hread

end Sys2Proof.Machine

/-- Settles O54: the bytes agree bit by bit, and below the ceiling the accumulator's position is the cursor. -/
theorem byteAccumulatorBuildsTheSameBuffer : Obligations.ByteAccumulatorBuildsTheSameBuffer := by
  intro s ts _ hfilled
  refine ⟨fun k hk => flushed_gatherRuns hfilled hk, fun hroom => ?_⟩
  obtain ⟨hcount, hpos, -⟩ := gathered_gatherRuns ts
  have ⟨_, hwp, _⟩ := hfilled
  rw [← expand_wp_stream, ← hwp] at hpos
  have hbyte : s.wp / 8 = (gatherRuns ts).stored.length := by omega
  have hbit : s.wp % 8 = (gatherRuns ts).count := by omega
  have hacc := flushed_gatherRuns hfilled (k := (gatherRuns ts).stored.length)
    (show _ < 74 by omega)
  rw [accumulatorView, hbyte, hbit, ← hacc, flushed_stored_length]

end

section
/-! The model's loading of a bare word (log 6): where it is put, and that it is read there next. -/

open Sys2Proof Sys2Proof.Machine

namespace Sys2Proof.Machine

/-- A bare word is read as a command or as a slot-0 symbol, never as a data symbol. -/
theorem bareWordFormat_cases {nbits w : Nat} {f : Format} (h : bareWordFormat nbits w = some f) :
    f = .cmd ∨ f = .sym0 := by
  unfold bareWordFormat at h
  split_ifs at h <;> cases h
  · exact .inl rfl
  · exact .inr rfl
  · exact .inr rfl
  · exact .inl rfl
  · exact .inr rfl

theorem eq_ok_of_toOption {e : Except DecodeError Instr} {i : Instr} (h : e.toOption = some i) : e = .ok i := by
  cases e with
  | error _ => cases h
  | ok _ => exact congrArg Except.ok (Option.some.inj h)

/-- What a bare word decodes to, as a machine word of the format it is read in. -/
theorem decodeTableWord_cases {nbits w : Nat} {i : Instr} (h : decodeTableWord nbits w = some i) :
    (∃ x : CmdWord, bareWordFormat nbits w = some .cmd ∧ w = x.toNat ∧ decodeCommand x = i) ∨
      ∃ c : Sym, bareWordFormat nbits w = some .sym0 ∧ w = c.toNat ∧ decodeSlot0 c = i := by
  cases hformat : bareWordFormat nbits w with
  | none =>
    rw [decodeTableWord, hformat] at h
    cases h
  | some f =>
    have hdec : decode f w = .ok i := by
      rw [decodeTableWord, hformat] at h
      exact eq_ok_of_toOption h
    rcases bareWordFormat_cases hformat with rfl | rfl
    · obtain ⟨x, rfl⟩ := exists_bitVec_toNat (word_fits_of_decode hdec)
      exact .inl ⟨x, rfl, rfl, Except.ok.inj ((decode_cmd_toNat x).symm.trans hdec)⟩
    · obtain ⟨c, rfl⟩ := exists_bitVec_toNat (word_fits_of_decode hdec)
      exact .inr ⟨c, rfl, rfl, Except.ok.inj ((decode_sym0_toNat c).symm.trans hdec)⟩

theorem withFetchWord_command {nbits : Nat} {x : CmdWord} (h : bareWordFormat nbits x.toNat = some .cmd) (s : State) :
    s.withFetchWord nbits x.toNat = { s with input := .command x :: s.input } := by
  rw [State.withFetchWord, placeBareWord, h]
  simp only [BitVec.ofNat_toNat, BitVec.setWidth_eq]

theorem withFetchWord_symbol {nbits w : Nat} (h : bareWordFormat nbits w = some .sym0) (s : State) :
    s.withFetchWord nbits w = { s with
      cb := placeField s.cb Config.firstOff Config.symBits w
      wp := max s.wp (Config.firstOff + Config.symBits), haveRun := true
      input := .command endWord :: s.input } := by
  rw [State.withFetchWord, placeBareWord, h]

/-- A symbol placed in slot 0 is read back from it. -/
theorem symbolOf_placeField {m : Memory} (hwf : m.wf = true) (c : Sym) :
    symbolOf (placeField m Config.firstOff Config.symBits c.toNat).bit 0 = c := by
  obtain ⟨-, hbit⟩ := placeField_bit hwf 27 14 c.toNat (by decide)
  apply BitVec.eq_of_getLsbD_eq
  intro i hi
  have hpos : 13 - (13 - i) = i := by omega
  have hread := symbolOf_getLsbD (placeField m Config.firstOff Config.symBits c.toNat).bit 0 (13 - i) (by omega)
  rw [hpos] at hread
  refine hread.trans ((hbit _).trans ?_)
  rw [if_pos (by omega), show 27 + 14 - 1 - (27 + 17 * 0 + (13 - i)) = i by omega, BitVec.testBit_toNat]

end Sys2Proof.Machine

/-- Settles O55: a command word stands at the head of the queue; a symbol is read back from slot 0, and the `END` before the queue
finds `HAVE = 1`. -/
theorem placedWordIsFetchedNext : Obligations.PlacedWordIsFetchedNext := by
  intro s nbits w i hwf hdec
  rcases decodeTableWord_cases hdec with ⟨x, hformat, rfl, rfl⟩ | ⟨c, hformat, rfl, rfl⟩
  · refine ⟨fun _ => ?_, fun hsymbol => ?_⟩
    · rw [withFetchWord_command hformat]
      exact step_command rfl
    · rcases decodeCommand_cases x with hd | hd <;> simp [hd] at hsymbol
  · refine ⟨fun hcommand => ?_, fun _ => ⟨?_, ?_⟩⟩
    · rcases decodeSlot0_cases c with ⟨-, hd⟩ | ⟨-, hd⟩ | ⟨-, -, hd⟩ <;> simp [hd] at hcommand
    · rw [withFetchWord_symbol hformat]
      exact congrArg decodeSlot0 (symbolOf_placeField hwf c)
    · rw [withFetchWord_symbol hformat]
      exact (step_endWord rfl).trans (execEnd_frame rfl)

end
